-- ==== Sys2Proof/Word.lean ====
section
/-! DEFINITION. The word types of the engine's data paths (spec/20_memory.md R39). -/

namespace Sys2Proof

/-- A line level, 0 or 1 (00_scope.md R11): what one `PinWrite` or one `PinSample` moves. -/
abbrev Level := BitVec 1

/-- A command word, 16 bits (30_encoding.md R46). -/
abbrev CmdWord := BitVec 16

/-- A response word, 32 bits (10_state.md R24). -/
abbrev RspWord := BitVec 32

/-- The 24 data bits of one read (10_state.md R26, `SHIFT`). -/
abbrev Reading := BitVec 24

end Sys2Proof
end

