-- ==== Sys2Proof/Syntax.lean ====
section
/-! DEFINITION. The engine's five commands (spec/30_encoding.md R45, opcode_table.json). -/

namespace Sys2Proof

/-- One constructor per row of the opcode table. -/
inductive Instr where
  /-- `pdown`: drive the clock line high (40_line_control.md R58) -/
  | pdown
  /-- `pup`: drive the clock line low (40_line_control.md R59) -/
  | pup
  /-- `ready`: report whether the peer has a result ready (40_line_control.md R60) -/
  | ready
  /-- `read`: take one conversion result from the peer (41_read.md R63) -/
  | read
  /-- `setgain code`: select channel and gain (42_gain_select.md R77). The operand is `code = zext_32(word[15:8])`
  (30_encoding.md R47). -/
  | setgain (code : BitVec 32)
deriving DecidableEq, Repr

end Sys2Proof
end

