-- ==== Sys2Proof/WellFormed.lean ====
section
/-! DEFINITION. When a command has a word (spec/30_encoding.md R47: "a code of 256 or more cannot be encoded"). -/

namespace Sys2Proof

/-- The operand fits the 8-bit `ARG` field. The only check: the other commands have no operand. -/
def Instr.wellFormed : Instr → Bool
  | .pdown => true
  | .pup => true
  | .ready => true
  | .read => true
  | .setgain code => decide (code.toNat < 256)

end Sys2Proof
end

