-- ==== Sys2Proof/Decode.lean ====
section
/-! DEFINITION. Decoding and encoding of command words (spec/30_encoding.md R46 to R53). A command is one 16-bit word
that moves whole (20_memory.md R37), so the decoder reads a word and no byte order arises. -/

namespace Sys2Proof

/-- Why a word is illegal (30_encoding.md R49). Every reason gives the same exception (60_exceptions.md R86). -/
inductive DecodeError where
  /-- `RSV ≠ 0` -/
  | reservedField
  /-- `OP` is 0x0 or 0x6 to 0xF -/
  | reservedOp
  /-- `OP` is 0x1 to 0x4 and `ARG ≠ 0` -/
  | nonzeroArg
deriving DecidableEq, Repr

/-- `OP = word[3:0]` (R46). -/
def opField (w : CmdWord) : BitVec 4 := w.extractLsb' 0 4

/-- `RSV = word[7:4]` (R46). -/
def rsvField (w : CmdWord) : BitVec 4 := w.extractLsb' 4 4

/-- `ARG = word[15:8]` (R46). -/
def argField (w : CmdWord) : BitVec 8 := w.extractLsb' 8 8

/-- A command that takes no operand: `ARG` must be 0 (R49). -/
def decodeNoArg (i : Instr) (w : CmdWord) : Except DecodeError Instr :=
  if argField w = 0 then .ok i else .error .nonzeroArg

/-- The decode of `accept(word)` (R52): total on every word. -/
def decode (w : CmdWord) : Except DecodeError Instr :=
  if rsvField w ≠ 0 then .error .reservedField
  else if opField w = 0x1 then decodeNoArg .pdown w
  else if opField w = 0x2 then decodeNoArg .pup w
  else if opField w = 0x3 then decodeNoArg .ready w
  else if opField w = 0x4 then decodeNoArg .read w
  else if opField w = 0x5 then .ok (.setgain ((argField w).setWidth 32))
  else .error .reservedOp

/-- The word layout of R46: `ARG : RSV : OP` with `RSV = 0`. -/
def packWord (arg : BitVec 8) (op : BitVec 4) : CmdWord := arg ++ (0#4 ++ op)

/-- The word of a well-formed command (R48). -/
def encode : Instr → CmdWord
  | .pdown => packWord 0 0x1
  | .pup => packWord 0 0x2
  | .ready => packWord 0 0x3
  | .read => packWord 0 0x4
  | .setgain code => packWord (code.setWidth 8) 0x5

/-- The command word whose bits the opcode table numbers: `nbits` bits of `w`, every bit above them 0. Every command is
16 bits (R46), so a number that does not fit 16 bits is no command word. -/
def tableWord (nbits w : Nat) : Option CmdWord :=
  if w % 2 ^ nbits < 2 ^ 16 then some (BitVec.ofNat 16 (w % 2 ^ nbits)) else none

/-- The host's question: the command the decoder reads from a word of the opcode table. -/
def decodeTableWord (nbits w : Nat) : Option Instr :=
  match tableWord nbits w with
  | none => none
  | some word =>
    match decode word with
    | .ok i => some i
    | .error _ => none

end Sys2Proof
end

