-- ==== Sys2Proof/Config.lean ====
section
/-! DEFINITION. What is fixed for one engine instance (spec/00_scope.md R7, 10_state.md R18), the free values, and the
shape of the record of the source's literals (93_implementation_defined.md I13). -/

namespace Sys2Proof

/-- `PDOWN_FORM` (00_scope.md R7, 92_eei_decisions.md D22): one write or two. -/
inductive PdownForm where
  | highOnly
  | lowThenHigh
deriving DecidableEq, Repr

/-- `SETGAIN_UNRECOGNISED_TAIL` (00_scope.md R7, 92_eei_decisions.md D11): whether `SETGAIN` with an unrecognised code
performs the power-up write and the throwaway read. -/
inductive SetgainTail where
  | perform
  | skip
deriving DecidableEq, Repr

/-- The parameters of one instance. No step writes them. State carries them (assumption 4), so that a statement about
every state holds under every value of the two parameters the source leaves open (92_eei_decisions.md D11, D22). -/
structure Config where
  /-- the data line the instance is bound to (10_state.md R18: construction order is data, clock) -/
  dataPin : Nat
  /-- the clock line the instance is bound to -/
  clockPin : Nat
  /-- `PDOWN_FORM` -/
  pdownForm : PdownForm
  /-- `SETGAIN_UNRECOGNISED_TAIL` -/
  setgainTail : SetgainTail
deriving DecidableEq, Repr

namespace Config

/-- The defaults of 00_scope.md R7. The two pin numbers are a DESIGN CHOICE (assumption 5): no rule depends on them. -/
def standard : Config :=
  { dataPin := 0, clockPin := 1, pdownForm := .highOnly, setgainTail := .perform }

/-- FREE VALUE (10_state.md R32, 93_implementation_defined.md I2: "any value"): the level the `n`-th free `DIN` sample of an
instance bound to the data line `dataPin` reads, where the environment has fixed none. Nothing constrains it. DESIGN CHOICE:
it is named by the data line and the count, so instances on data lines of their own draw independently, and two on one data
line, which 60_exceptions.md R98 excludes, would read the same level at equal counts (assumption 1). -/
opaque dinDraw (dataPin n : Nat) : Level

/-- OPEN parameter `T_HIGH` (00_scope.md R7), in nanoseconds. "The model has no value for it" (70_reset_and_hazards.md
R121); no step reads it (assumption 6). -/
opaque tHigh : Nat

/-- OPEN parameter `T_LOW`, in nanoseconds. -/
opaque tLow : Nat

/-- OPEN parameter `T_POLL`, in nanoseconds. -/
opaque tPoll : Nat

end Config

/-- The shape of the one record of the source's numeric literals, so that an audit that corrects one changes one place
(93_implementation_defined.md I13). Its value is `Machine.literals`. -/
structure Literals where
  /-- `N_DATA`: data bits per read -/
  nData : BitVec 5
  /-- `N_GROUP`: bits per group -/
  nGroup : Nat
  /-- the three gain codes and the pulse count each selects (42_gain_select.md R78) -/
  codeA128 : BitVec 32
  pulsesA128 : BitVec 2
  codeA64 : BitVec 32
  pulsesA64 : BitVec 2
  codeB32 : BitVec 32
  pulsesB32 : BitVec 2
  /-- `T_PD_MIN` in nanoseconds -/
  tPdMin : Nat
deriving DecidableEq, Repr

end Sys2Proof
end

