-- ==== Sys2Proof/Machine/State.lean ====
section
/-! DEFINITION. The engine's state (spec/10_state.md R15 to R28), the reasons a step can stop, and the state after reset
(10_state.md R31). -/

namespace Sys2Proof.Machine

/-- `PHASE`, the sequencer state: exactly eight values (10_state.md R25). -/
inductive Phase where
  /-- no command in progress; a command may be accepted -/
  | idle
  /-- polling `DIN` for readiness -/
  | wait
  /-- about to drive the high edge of a data pulse -/
  | drise
  /-- about to sample a data bit -/
  | dsamp
  /-- about to drive the low edge of a data pulse -/
  | dfall
  /-- about to drive the high edge of a gain pulse -/
  | grise
  /-- about to drive the low edge of a gain pulse -/
  | gfall
  /-- about to drive the high write of `PDOWN` (only under `LOW_THEN_HIGH`) -/
  | pdhi
deriving DecidableEq, Repr

/-- `CUR`: the command a read sequence belongs to (10_state.md R26). -/
inductive Cur where
  | read
  | setgain
deriving DecidableEq, Repr

/-- The direction of a line (10_state.md R17). -/
inductive Direction where
  | output
  | input
deriving DecidableEq, Repr

/-- The event kinds of `TRACE` (10_state.md R27). -/
inductive Event where
  /-- `W(v)`: a write of level `v` to `SCK` -/
  | w (v : Level)
  /-- `S(d)`: a sample of `DIN` that read `d` -/
  | s (d : Level)
  /-- `C(word)`: the acceptance of command word `word` -/
  | c (word : CmdWord)
  /-- `R(v)`: a response with word `v` -/
  | r (v : RspWord)
deriving DecidableEq, Repr

/-- The engine's state. The fields down to `dinDir` are the spec's (10_state.md R15, R31; `STATUS` and `BUSY` are computed,
see `State.status`). The rest are the model's own: the parameters of the instance and the inputs of the coming steps. -/
structure State where
  /-- `SCKL`: the level driven on `SCK` (R16) -/
  sckl : Level
  /-- `GAINP`: the gain-pulse count (R19) -/
  gainp : BitVec 2
  /-- `ILL`: an illegal word has been taken (R21, R28) -/
  ill : Bool
  /-- `BADCMD`: the last illegal word (R22) -/
  badcmd : CmdWord
  /-- `RSP`: the last response (R24) -/
  rsp : RspWord
  /-- `PHASE` (R25) -/
  phase : Phase
  /-- `CUR` (R26) -/
  cur : Cur
  /-- `SHIFT`: the data shift register (R26) -/
  shift : Reading
  /-- `BITCNT`: data bits taken in the current read (R26) -/
  bitcnt : BitVec 5
  /-- `PULSECNT`: gain pulses sent in the current read (R26) -/
  pulsecnt : BitVec 2
  /-- `TRACE`: the event history, oldest first (R27) -/
  trace : List Event
  /-- direction of `SCK` (R17, R31) -/
  sckDir : Direction
  /-- direction of `DIN` (R17, R31) -/
  dinDir : Direction
  /-- the instance's parameters (00_scope.md R7); written by nothing -/
  cfg : Config
  /-- INPUT: the words the host offers, in order; each is held until it is accepted (R24) -/
  offers : List CmdWord
  /-- INPUT: the reset input at each coming step; not asserted beyond the list (70_reset_and_hazards.md R106) -/
  resets : List Bool
  /-- INPUT: the levels the environment has fixed for the coming samples; beyond the list a sample is free (R32) -/
  dinIn : List Level
  /-- counter of the free samples drawn so far (`Config.dinDraw`) -/
  dinCount : Nat
deriving DecidableEq, Repr

/-- The reasons the machine stops with a fault. The engine's own step raises none: `IllegalCommand` is a next state
(60_exceptions.md R83) and a hang goes on (R87). -/
inductive Fault where
  /-- Raised by `Platform.step` only: two instances drive one shared clock line in the same step, a race for which the
  spec gives no combined level (60_exceptions.md R99, 92_eei_decisions.md D19). Safe: the model stops where hardware
  goes on. -/
  | sharedClockWrite
deriving DecidableEq, Repr

/-- The reasons a step is refused. -/
inductive Refusal where
  /-- Raised by `exec` for an instruction that has no meaning yet: none. Safe. -/
  | notModelled (mnemonic : String)
  /-- Raised by `acceptOffer`: `PHASE = IDLE` and the host offers nothing, so "the engine has no step" (10_state.md R32).
  Safe: the model stops where the hardware waits. -/
  | noCommandOffered
deriving DecidableEq, Repr

/-- The state after reset: the table of 10_state.md R31. The parameters are the defaults of 00_scope.md R7 and no input
is given (assumptions 1 to 5). -/
def State.reset : State :=
  { sckl := 0
    gainp := 1
    ill := false
    badcmd := 0x0000
    rsp := 0x00000000
    phase := .idle
    cur := .read
    shift := 0x000000
    bitcnt := 0
    pulsecnt := 0
    trace := []
    sckDir := .output
    dinDir := .input
    cfg := Config.standard
    offers := []
    resets := []
    dinIn := []
    dinCount := 0 }

end Sys2Proof.Machine
end

