-- ==== Sys2Proof/Machine/Flags.lean ====
section
/-! DEFINITION. The flags and the status register (spec/10_state.md R21, R28). -/

namespace Sys2Proof.Machine

/-- `BUSY`: 1 iff `PHASE ≠ IDLE`; not stored (R28). -/
def State.busy (s : State) : BitVec 1 := if s.phase = .idle then 0 else 1

/-- `ILL` as the bit the host reads. -/
def State.illBit (s : State) : BitVec 1 := if s.ill then 1 else 0

/-- `STATUS`, bits 7 down to 0: reserved (2), `GAINP` (2), reserved (1), `SCKL`, `ILL`, `BUSY` (R21). -/
def State.status (s : State) : BitVec 8 :=
  0#2 ++ (s.gainp ++ (0#1 ++ (s.sckl ++ (s.illBit ++ s.busy))))

end Sys2Proof.Machine
end

