-- ==== Sys2Proof/Machine/Operands.lean ====
section
/-! DEFINITION. The source's literals in one record (spec/93_implementation_defined.md I13), the gain-code mapping
(42_gain_select.md R78), the mode table (10_state.md R20), the shift step (41_read.md R66) and the sign extension
(41_read.md R71). -/

namespace Sys2Proof.Machine

/-- The source's numeric literals (00_scope.md R7, R8; 42_gain_select.md R78). `T_PD_MIN` is 60 μs. -/
def literals : Literals :=
  { nData := 24
    nGroup := 8
    codeA128 := 128
    pulsesA128 := 1
    codeA64 := 64
    pulsesA64 := 3
    codeB32 := 32
    pulsesB32 := 2
    tPdMin := 60000 }

/-- The pulse count a gain code selects; none for an unrecognised code (42_gain_select.md R77, R78). -/
def gainPulsesOf (code : BitVec 32) : Option (BitVec 2) :=
  if code = literals.codeA128 then some literals.pulsesA128
  else if code = literals.codeA64 then some literals.pulsesA64
  else if code = literals.codeB32 then some literals.pulsesB32
  else none

/-- The peer's channel and gain modes (00_scope.md R14, 10_state.md R20). -/
inductive Mode where
  /-- 128× gain, Channel A -/
  | a128
  /-- 32× gain, Channel B -/
  | b32
  /-- 64× gain, Channel A -/
  | a64
deriving DecidableEq, Repr

/-- The mode a number of trailing pulses programs (10_state.md R20, 60_exceptions.md R93): none for a count the source's
table does not list. -/
def modeOfPulses (n : Nat) : Option Mode :=
  match n with
  | 1 => some .a128
  | 2 => some .b32
  | 3 => some .a64
  | _ => none

/-- `SHIFT[22:0] : d`: the shift register after one more data bit (41_read.md R66). -/
def shiftIn (v : Reading) (d : Level) : Reading := v.extractLsb' 0 23 ++ d

/-- `sext_32(SHIFT)` (00_scope.md R10, 41_read.md R71). -/
def sext32 (v : Reading) : RspWord := v.signExtend 32

/-- The response of `READY` to a sampled level: 1 for ready, `DIN = 0`; else 0 (40_line_control.md R60). -/
def readyResponse (d : Level) : RspWord := if d = 0 then 0x00000001 else 0x00000000

end Sys2Proof.Machine
end

