-- ==== Sys2Proof/Machine/Ops.lean ====
section
/-! DEFINITION. The named operations every command shares: the two line primitives (spec/00_scope.md R11), `respond`
(10_state.md R24), the exception `IllegalCommand` (60_exceptions.md R83), reset (70_reset_and_hazards.md R105, R106) and
the taking of the step's inputs (10_state.md R24, R32). -/

namespace Sys2Proof.Machine

/-- Append one event to `TRACE` (10_state.md R27). -/
def State.append (e : Event) (s : State) : State := { s with trace := s.trace ++ [e] }

/-- `PinWrite(v)`: `SCKL <- v`; append `W(v)` (00_scope.md R11). The one writer of `SCKL` but reset (10_state.md R16). -/
def pinWrite (v : Level) (s : State) : State := State.append (.w v) { s with sckl := v }

/-- The level of `DIN` at the coming sample: the environment's where it has fixed one, else a free draw
(10_state.md R32, 93_implementation_defined.md I2). -/
def dinNow (s : State) : Level :=
  match s.dinIn with
  | d :: _ => d
  | [] => Config.dinDraw s.cfg.dataPin s.dinCount

/-- The environment's inputs after one sample: the level is used up, and the next free draw is a fresh one. -/
def dinTaken (s : State) : State :=
  { s with
    dinIn := s.dinIn.tail
    dinCount :=
      match s.dinIn with
      | _ :: _ => s.dinCount
      | [] => s.dinCount + 1 }

/-- `d <- PinSample()`, the state's part: append `S(d)` where `d = dinNow s` (00_scope.md R11). It changes nothing in
the engine but `TRACE` (20_memory.md R40). -/
def pinSample (s : State) : State := State.append (.s (dinNow s)) (dinTaken s)

/-- `respond(v)`: `RSP <- v`; append `R(v)`; `PHASE <- IDLE` (10_state.md R24). -/
def respond (v : RspWord) (s : State) : State :=
  State.append (.r v) { s with rsp := v, phase := .idle }

/-- `raise IllegalCommand(word)` (60_exceptions.md R83): `ILL <- 1`; `BADCMD <- word`; `respond(0)`. There is no vector,
no mode change and no return from it (R88). -/
def raiseIllegalCommand (word : CmdWord) (s : State) : State :=
  respond 0x00000000 { s with ill := true, badcmd := word }

/-- Reset of the engine (70_reset_and_hazards.md R105, R106): every register takes its value of 10_state.md R31,
whatever the state before. The parameters and the environment's inputs are no registers and stay. -/
def engineReset (s : State) : State :=
  { State.reset with
    cfg := s.cfg
    offers := s.offers
    resets := s.resets
    dinIn := s.dinIn
    dinCount := s.dinCount }

/-- The reset input is asserted at this step. -/
def resetAsserted (s : State) : Bool :=
  match s.resets with
  | r :: _ => r
  | [] => false

/-- The reset input of this step is used up. -/
def resetTaken (s : State) : State := { s with resets := s.resets.tail }

/-- The state with the first offered word taken and `C(word)` appended (10_state.md R24). -/
def takeOffer (word : CmdWord) (rest : List CmdWord) (s : State) : State :=
  State.append (.c word) { s with offers := rest }

/-- The state in which `word` is offered at the very next step and no reset competes with it. -/
def offerNext (word : CmdWord) (s : State) : State :=
  { s with
    phase := .idle
    offers := word :: s.offers
    resets := s.resets.set 0 false }

end Sys2Proof.Machine
end

