-- ==== Sys2Proof/Machine/LineControl.lean ====
section
/-! DEFINITION. The line control commands `PDOWN`, `PUP` and `READY` (spec/40_line_control.md R58 to R60). -/

namespace Sys2Proof.Machine

/-- `exec_PDOWN()`, the acceptance step (R58), under either value of `PDOWN_FORM`. -/
def pdownState (s : State) : State :=
  match s.cfg.pdownForm with
  | .highOnly => respond 0x00000000 (pinWrite 1 s)
  | .lowThenHigh => { pinWrite 0 s with phase := .pdhi }

/-- `PDOWN` (R58). -/
def execPdown (s : State) : Host.Outcome State Fault Refusal := .next (pdownState s)

/-- `step_PDHI()`: the second write of `PDOWN` under `LOW_THEN_HIGH` (R58). -/
def stepPdhi (s : State) : State := respond 0x00000000 (pinWrite 1 s)

/-- `PUP` (R59). -/
def execPup (s : State) : Host.Outcome State Fault Refusal := .next (respond 0x00000000 (pinWrite 0 s))

/-- `READY` (R60). -/
def execReady (s : State) : Host.Outcome State Fault Refusal :=
  .next (respond (readyResponse (dinNow s)) (pinSample s))

end Sys2Proof.Machine
end

