-- ==== Sys2Proof/Machine/ReadSeq.lean ====
section
/-! DEFINITION. The read sequence (spec/41_read.md R63 to R72): the acceptance step of `READ` and one micro-step per
value of `PHASE`. `SETGAIN`'s throwaway read runs the same micro-steps (42_gain_select.md R77). -/

namespace Sys2Proof.Machine

/-- `READ`: `CUR <- READ`; `PHASE <- WAIT`; no pin event (R63). -/
def execRead (s : State) : Host.Outcome State Fault Refusal := .next { s with cur := .read, phase := .wait }

/-- `step_WAIT(din)`: poll for readiness (R64). -/
def stepWait (s : State) : State :=
  if dinNow s = 0 then { pinSample s with shift := 0x000000, bitcnt := 0, phase := .drise }
  else pinSample s

/-- `step_DRISE()`: the high edge of a data pulse (R65). -/
def stepDrise (s : State) : State := { pinWrite 1 s with phase := .dsamp }

/-- `step_DSAMP(din)`: one data bit, in the high phase (R66). -/
def stepDsamp (s : State) : State :=
  { pinSample s with
    shift := shiftIn s.shift (dinNow s)
    bitcnt := s.bitcnt + 1
    phase := .dfall }

/-- `step_DFALL()`: the low edge of a data pulse (R68). -/
def stepDfall (s : State) : State :=
  if s.bitcnt = literals.nData then { pinWrite 0 s with pulsecnt := 0, phase := .grise }
  else { pinWrite 0 s with phase := .drise }

/-- `step_GRISE()`: the high edge of a gain pulse (R69). -/
def stepGrise (s : State) : State := { pinWrite 1 s with phase := .gfall }

/-- The response word that ends a read sequence: the raw reading for `READ`, 0 for `SETGAIN` (R72). -/
def finishResponse (s : State) : RspWord :=
  match s.cur with
  | .read => sext32 s.shift
  | .setgain => 0x00000000

/-- `finish()`: the end of a read sequence (R72). -/
def finish (s : State) : State := respond (finishResponse s) s

/-- The state after the low edge of a gain pulse and the count of it (the first two lines of R70). -/
def gainPulseDone (s : State) : State :=
  { pinWrite 0 s with pulsecnt := s.pulsecnt + 1 }

/-- `step_GFALL()`: the low edge of a gain pulse, and the gain-pulse counter (R70). -/
def stepGfall (s : State) : State :=
  if s.pulsecnt + 1 = s.gainp then finish (gainPulseDone s)
  else { gainPulseDone s with phase := .grise }

end Sys2Proof.Machine
end

