-- ==== Sys2Proof/Machine/GainSelect.lean ====
section
/-! DEFINITION. Gain selection, `SETGAIN` (spec/42_gain_select.md R77, R78). -/

namespace Sys2Proof.Machine

/-- The tail of `SETGAIN`: the forced power-up write, then the throwaway read begins (R77). -/
def setgainTail (s : State) : State := { pinWrite 0 s with cur := .setgain, phase := .wait }

/-- `exec_SETGAIN(code)`, the acceptance step (R77): the code mapping of R78, then the tail or, for an unrecognised code
under `SKIP`, the response at once. -/
def setgainState (code : BitVec 32) (s : State) : State :=
  match gainPulsesOf code with
  | some g => setgainTail { s with gainp := g }
  | none =>
    match s.cfg.setgainTail with
    | .perform => setgainTail s
    | .skip => respond 0x00000000 s

/-- `SETGAIN` (R77). -/
def execSetgain (code : BitVec 32) (s : State) : Host.Outcome State Fault Refusal := .next (setgainState code s)

end Sys2Proof.Machine
end

