-- ==== Sys2Proof/Machine/Dispatch.lean ====
section
/-! DEFINITION. One arm per command (spec/30_encoding.md R52). -/

namespace Sys2Proof.Machine

def exec (i : Instr) (s : State) : Host.Outcome State Fault Refusal :=
  match i with
  | .pdown => Sys2Proof.Machine.execPdown s
  | .pup => Sys2Proof.Machine.execPup s
  | .ready => Sys2Proof.Machine.execReady s
  | .read => Sys2Proof.Machine.execRead s
  | .setgain code => Sys2Proof.Machine.execSetgain code s

end Sys2Proof.Machine
end

