-- ==== Sys2Proof/Machine/Accept.lean ====
section
/-! DEFINITION. The acceptance step (spec/30_encoding.md R52, 10_state.md R24) and the engine's step without reset
(10_state.md R32). -/

namespace Sys2Proof.Machine

/-- `accept(word)` after `C(word)` is appended (R52): the decoded command, or `IllegalCommand(word)`. -/
def dispatchWord (word : CmdWord) (s : State) : Host.Outcome State Fault Refusal :=
  match decode word with
  | .ok i => exec i s
  | .error _ => .next (raiseIllegalCommand word s)

/-- `PHASE = IDLE`: accept the offered word; with none offered the engine has no step (10_state.md R32). -/
def acceptOffer (s : State) : Host.Outcome State Fault Refusal :=
  match s.offers with
  | word :: rest => dispatchWord word (takeOffer word rest s)
  | [] => .refused .noCommandOffered

/-- One engine step without reset: an acceptance in `IDLE`, else the micro-step of the current `PHASE` (R32). -/
def engineStep (s : State) : Host.Outcome State Fault Refusal :=
  match s.phase with
  | .idle => acceptOffer s
  | .wait => .next (stepWait s)
  | .drise => .next (stepDrise s)
  | .dsamp => .next (stepDsamp s)
  | .dfall => .next (stepDfall s)
  | .grise => .next (stepGrise s)
  | .gfall => .next (stepGfall s)
  | .pdhi => .next (stepPdhi s)

/-- One step with the reset input read first: reset takes precedence over every step (70_reset_and_hazards.md R106,
60_exceptions.md R86). -/
def stepWithReset (s : State) : Host.Outcome State Fault Refusal :=
  if resetAsserted s then .next (engineReset (resetTaken s)) else engineStep (resetTaken s)

end Sys2Proof.Machine
end

