-- ==== Sys2Proof/Machine/Step.lean ====
section
/-! DEFINITION. The machine's step and the host's way to place a command word. -/

namespace Sys2Proof.Machine

/-- One step of the engine (spec/10_state.md R32, 70_reset_and_hazards.md R106). -/
def step (s : State) : Host.Outcome State Fault Refusal := stepWithReset s

/-- The engine fetches nothing: the host offers a word on the command port (10_state.md R23, R24). The state in which the
very next step accepts the word of `nbits` bits `w`; a number that is no 16-bit word is offered as its low 16 bits. -/
def State.withFetchWord (s : State) (nbits w : Nat) : State :=
  offerNext (BitVec.ofNat 16 (w % 2 ^ nbits)) s

end Sys2Proof.Machine
end

