-- ==== Sys2Proof/Machine/Asm.lean ====
section
/-! DEFINITION. Assembler and disassembler (spec/30_encoding.md R54 to R56). Text is a list of characters. What the spec
leaves open of the syntax (comments behind a command, number syntax) is assumption 9. -/

namespace Sys2Proof.Machine

/-- The value of a digit in a base of at most 16. -/
def digitValue (base : Nat) (c : Char) : Option Nat :=
  let n := c.toNat
  let v : Option Nat :=
    if 48 ≤ n ∧ n ≤ 57 then some (n - 48)
    else if 65 ≤ n ∧ n ≤ 70 then some (n - 55)
    else if 97 ≤ n ∧ n ≤ 102 then some (n - 87)
    else none
  match v with
  | some d => if d < base then some d else none
  | none => none

/-- The value of a list of digits, from the value of those before it. -/
def digitsValue (base : Nat) : Nat → List Char → Option Nat
  | acc, [] => some acc
  | acc, c :: cs =>
    match digitValue base c with
    | some d => digitsValue base (acc * base + d) cs
    | none => none

/-- A decimal integer, or a hexadecimal integer behind `0x` (R54). At least one digit. -/
def numberValue : List Char → Option Nat
  | [] => none
  | ['0', 'x'] => none
  | '0' :: 'x' :: ds => digitsValue 16 0 ds
  | c :: cs => digitsValue 10 0 (c :: cs)

/-- A number below a bound: the assembler refuses a value outside the range, it does not truncate it (R54). -/
def numberBelow (bound : Nat) (cs : List Char) : Option Nat :=
  match numberValue cs with
  | some n => if n < bound then some n else none
  | none => none

/-- Blank space inside a line. -/
def isBlank (c : Char) : Bool := c = ' ' || c = '\t' || c = '\r'

/-- The tokens of a text, with the token being read (reversed). -/
def tokensFrom : List Char → List Char → List (List Char)
  | tok, [] => if tok = [] then [] else [tok.reverse]
  | tok, c :: cs =>
    if isBlank c then (if tok = [] then tokensFrom [] cs else tok.reverse :: tokensFrom [] cs)
    else tokensFrom (c :: tok) cs

/-- The tokens of a line, its comment left out. -/
def tokens (line : List Char) : List (List Char) := tokensFrom [] (line.takeWhile (· ≠ ';'))

/-- `pdown` -/
def textPdown : List Char := ['p', 'd', 'o', 'w', 'n']
/-- `pup` -/
def textPup : List Char := ['p', 'u', 'p']
/-- `ready` -/
def textReady : List Char := ['r', 'e', 'a', 'd', 'y']
/-- `read` -/
def textRead : List Char := ['r', 'e', 'a', 'd']
/-- `setgain` -/
def textSetgain : List Char := ['s', 'e', 't', 'g', 'a', 'i', 'n']
/-- `.word` -/
def textWord : List Char := ['.', 'w', 'o', 'r', 'd']
/-- `gain.a128` -/
def textGainA128 : List Char := ['g', 'a', 'i', 'n', '.', 'a', '1', '2', '8']
/-- `gain.b32` -/
def textGainB32 : List Char := ['g', 'a', 'i', 'n', '.', 'b', '3', '2']
/-- `gain.a64` -/
def textGainA64 : List Char := ['g', 'a', 'i', 'n', '.', 'a', '6', '4']

/-- What a source line is (R54). -/
inductive AsmLine where
  /-- a blank line or a comment -/
  | blank
  /-- a line that gives one word -/
  | word (w : CmdWord)
  /-- a line the assembler refuses -/
  | bad
deriving DecidableEq, Repr

/-- A line of one token: a command without operand or a pseudo-instruction (R54, R55). -/
def assembleOne (t : List Char) : AsmLine :=
  if t = textPdown then .word (encode .pdown)
  else if t = textPup then .word (encode .pup)
  else if t = textReady then .word (encode .ready)
  else if t = textRead then .word (encode .read)
  else if t = textGainA128 then .word (encode (.setgain 128))
  else if t = textGainB32 then .word (encode (.setgain 32))
  else if t = textGainA64 then .word (encode (.setgain 64))
  else .bad

/-- A line of two tokens: `setgain CODE` or `.word W` (R54). -/
def assembleTwo (t a : List Char) : AsmLine :=
  if t = textSetgain then
    match numberBelow 256 a with
    | some n => .word (encode (.setgain (BitVec.ofNat 32 n)))
    | none => .bad
  else if t = textWord then
    match numberBelow 65536 a with
    | some n => .word (BitVec.ofNat 16 n)
    | none => .bad
  else .bad

/-- One source line (R54). -/
def assembleLine (line : List Char) : AsmLine :=
  match tokens line with
  | [] => .blank
  | [t] => assembleOne t
  | [t, a] => assembleTwo t a
  | _ :: _ :: _ :: _ => .bad

/-- The words of a source text, given as its lines; none where a line is refused. -/
def assemble : List (List Char) → Option (List CmdWord)
  | [] => some []
  | line :: rest =>
    match assembleLine line with
    | .blank => assemble rest
    | .word w => (assemble rest).map (w :: ·)
    | .bad => none

/-- An upper-case digit, of a value below 16. -/
def digitChar (n : Nat) : Char := if n < 10 then Char.ofNat (48 + n) else Char.ofNat (55 + n)

/-- A number below 1000 in decimal, with no leading zero. -/
def decimalText (n : Nat) : List Char :=
  if n < 10 then [digitChar n]
  else if n < 100 then [digitChar (n / 10), digitChar (n % 10)]
  else [digitChar (n / 100), digitChar (n / 10 % 10), digitChar (n % 10)]

/-- A word as four upper-case hexadecimal digits behind `0x` (R56). -/
def hexText (w : CmdWord) : List Char :=
  ['0', 'x', digitChar (w.toNat / 4096), digitChar (w.toNat / 256 % 16), digitChar (w.toNat / 16 % 16),
    digitChar (w.toNat % 16)]

/-- Disassembly (R56): the mnemonic, `SETGAIN` with its code in decimal; an illegal word as `.word 0xNNNN`. -/
def disassemble (w : CmdWord) : List Char :=
  match decode w with
  | .ok .pdown => textPdown
  | .ok .pup => textPup
  | .ok .ready => textReady
  | .ok .read => textRead
  | .ok (.setgain code) => textSetgain ++ ' ' :: decimalText code.toNat
  | .error _ => textWord ++ ' ' :: hexText w

end Sys2Proof.Machine
end

