-- ==== Sys2Proof/Machine/HostPort.lean ====
section
/-! DEFINITION. The host's interactions with the engine (spec/60_exceptions.md R102, 10_state.md R21, R24): offering a
word, reading the status port, asserting reset. The host has no other move: that it never writes `SCK`, drives `DIN` or
re-wires the instance is the assumption of 60_exceptions.md R103 and 93_implementation_defined.md I7 (assumption 18). -/

namespace Sys2Proof.Machine

/-- The host offers one more word behind those already offered. -/
def hostOffer (word : CmdWord) (s : State) : State := { s with offers := s.offers ++ [word] }

/-- The host asserts reset at the next step. -/
def hostReset (s : State) : State := { s with resets := true :: s.resets.tail }

/-- A read of the status port: the state is not changed (20_memory.md R40). -/
def hostReadStatus (s : State) : BitVec 8 × State := (s.status, s)

/-- A read of `BADCMD`. -/
def hostReadBadcmd (s : State) : CmdWord × State := (s.badcmd, s)

/-- A read of `RSP`. -/
def hostReadRsp (s : State) : RspWord × State := (s.rsp, s)

end Sys2Proof.Machine
end

