-- ==== Sys2Proof/Machine/Peer.lean ====
section
/-! DEFINITION. The contract of the attached converter (spec/60_exceptions.md R90 to R95) as a peer beside the engine.
It is no part of the engine (00_scope.md R5): `step` does not use it. Whatever the source does not say of the peer is the
phase `unspecified`, in which `DIN` stays a free draw. The choices of this file are assumption 7. -/

namespace Sys2Proof.Machine

/-- What the peer is doing. -/
inductive PeerPhase where
  /-- a conversion runs; `DIN` is high (R91) -/
  | converting
  /-- a result is latched and ready to shift out; `DIN` is low (R91) -/
  | ready (v : Reading)
  /-- `n` clock pulses of the data shift have begun, `1 ≤ n ≤ 24` (R92) -/
  | shifting (v : Reading) (n : Nat)
  /-- all 24 data bits are out and `g` further pulses have begun; the next conversion follows (R93) -/
  | trailing (g : Nat)
  /-- the low-power sleep state (R94) -/
  | asleep
  /-- the source does not say what the peer does (91_not_in_source.md N7, N9, N14). `n` counts the data pulses of the
  current read that the peer has seen, 0 where it has missed one. `stray`: it has seen a pulse outside a read, which it may
  count as a pulse of the next one (N9) -/
  | unspecified (stray : Bool) (n : Nat)
deriving DecidableEq, Repr

/-- The peer: what it does, the `SCK` level it sees, the mode of its running conversion or latched result, and the mode
programmed for its next conversion (10_state.md R30). -/
structure Peer where
  phase : PeerPhase
  sck : Level
  convMode : Mode
  nextMode : Mode
deriving DecidableEq, Repr

/-- What the outside does to the peer before a step: nothing; a conversion ends with a result (its time is the peer's,
R95); or `SCK` has by now been high for at least `T_PD_MIN` (a host's choice, 70_reset_and_hazards.md R107). -/
inductive PeerInput where
  | quiet
  | finish (v : Reading)
  | held
deriving DecidableEq, Repr

/-- Which pulse of the engine's read a rising edge is: the `k`-th data pulse, the `k`-th gain pulse, or none
(00_scope.md R13). -/
inductive Pulse where
  | outside
  | data (k : Nat)
  | gain (k : Nat)
deriving DecidableEq, Repr

/-- The pulse a rising edge in the engine's coming step is. -/
def pulseOf (e : State) : Pulse :=
  match e.phase with
  | .drise => .data (e.bitcnt.toNat + 1)
  | .grise => .gain (e.pulsecnt.toNat + 1)
  | .idle => .outside
  | .wait => .outside
  | .dsamp => .outside
  | .dfall => .outside
  | .gfall => .outside
  | .pdhi => .outside

/-- The engine is in the middle of a read: its first pulse has begun and its last is not over. DEDUCED: before the first
pulse the read has changed nothing on the lines, so the contract goes on (assumption 7). -/
def inMidRead (e : State) : Bool :=
  match e.phase with
  | .drise => decide (e.bitcnt ≠ 0)
  | .dsamp => true
  | .dfall => true
  | .grise => true
  | .gfall => true
  | .idle => false
  | .wait => false
  | .pdhi => false

/-- The peer where the source does not say what it does, with `n` data pulses of the current read seen; a stray pulse seen
earlier is remembered. -/
def peerLost (n : Nat) (p : Peer) : Peer :=
  match p.phase with
  | .unspecified stray _ => { p with phase := .unspecified stray n }
  | .converting => { p with phase := .unspecified false n }
  | .ready _ => { p with phase := .unspecified false n }
  | .shifting _ _ => { p with phase := .unspecified false n }
  | .trailing _ => { p with phase := .unspecified false n }
  | .asleep => { p with phase := .unspecified false n }

/-- A conversion ends. The one after a read is made in the mode its trailing pulses programmed (R93). DESIGN CHOICE
(assumption 7): the source does not say what happens where a conversion ends between two pulses of one read, or while a
result is latched or being shifted out, so the peer is `unspecified` from there. In sleep it stays asleep: what it drives on
`DIN` is open there in any case (N7), and only a return to low ends sleep (R94, R100). -/
def peerFinish (midRead : Bool) (v : Reading) (p : Peer) : Peer :=
  match p.phase with
  | .converting => { p with phase := .ready v }
  | .trailing _ => if midRead then peerLost 0 p else { p with phase := .ready v, convMode := p.nextMode }
  | .ready _ => peerLost 0 p
  | .shifting _ _ => peerLost 0 p
  | .asleep => p
  | .unspecified _ _ => p

/-- `SCK` has been high long enough to power the peer down (R94), whatever it was doing. -/
def peerHold (p : Peer) : Peer := if p.sck = 1 then { p with phase := .asleep } else p

/-- The outside's input, before a step of the engine `e`. -/
def peerInput (e : State) (i : PeerInput) (p : Peer) : Peer :=
  match i with
  | .quiet => p
  | .finish v => peerFinish (inMidRead e) v p
  | .held => peerHold p

/-- The `g`-th gain pulse of a complete read begins, which selects the mode of the next conversion (R93); a fourth is
outside the source's table (N14). -/
def peerGainPulse (g : Nat) (p : Peer) : Peer :=
  match modeOfPulses g with
  | some m => { p with phase := .trailing g, nextMode := m }
  | none => peerLost 0 p

/-- The `k`-th data pulse of a read begins (R92). A peer that does not stand at that pulse has seen a pulse count the
source does not describe (93_implementation_defined.md I14). -/
def peerDataPulse (k : Nat) (p : Peer) : Peer :=
  match p.phase with
  | .ready v => if k = 1 then { p with phase := .shifting v 1 } else peerLost 0 p
  | .shifting v n => if k = n + 1 then { p with phase := .shifting v k } else peerLost (if k = 1 then 1 else 0) p
  | .unspecified _ n => peerLost (if k = 1 ∨ k = n + 1 then k else 0) p
  | .converting => peerLost (if k = 1 then 1 else 0) p
  | .trailing _ => peerLost (if k = 1 then 1 else 0) p
  | .asleep => peerLost (if k = 1 then 1 else 0) p

/-- The `k`-th gain pulse of a read begins (R93). A peer in an `unspecified` phase is programmed by a complete read, one of
which it has seen all 24 data pulses (93_implementation_defined.md I14: unknown "until a complete read has programmed it").
DEDUCED (assumption 7): where it may have counted a stray pulse (N9) that read only makes it count afresh, and the next
complete one programs it. -/
def peerTrailPulse (k : Nat) (p : Peer) : Peer :=
  match p.phase with
  | .shifting _ n => if n = 24 ∧ k = 1 then peerGainPulse 1 p else peerLost 0 p
  | .trailing g => if k = g + 1 then peerGainPulse k p else peerLost 0 p
  | .unspecified stray n =>
    if n = 24 ∧ k = 1 then
      (if stray then { p with phase := .unspecified false 0 } else peerGainPulse 1 p)
    else peerLost 0 p
  | .converting => peerLost 0 p
  | .ready _ => peerLost 0 p
  | .asleep => peerLost 0 p

/-- A rising edge of `SCK`. Outside a read the source says nothing of it but that a long one is a power-down (N7, N9). -/
def peerRise (q : Pulse) (p : Peer) : Peer :=
  match q with
  | .outside => { p with phase := .unspecified true 0 }
  | .data k => peerDataPulse k p
  | .gain k => peerTrailPulse k p

/-- A falling edge of `SCK`: out of sleep the peer resets and resumes in Channel A / 128× (R94). -/
def peerFall (p : Peer) : Peer :=
  match p.phase with
  | .asleep => { p with phase := .converting, convMode := .a128, nextMode := .a128 }
  | .converting => p
  | .ready _ => p
  | .shifting _ _ => p
  | .trailing _ => p
  | .unspecified _ _ => p

/-- The peer sees the level `new` on `SCK`. -/
def peerClock (q : Pulse) (new : Level) (p : Peer) : Peer :=
  if new = p.sck then p
  else if new = 1 then { peerRise q p with sck := new }
  else { peerFall p with sck := new }

/-- The engine `e` is reset and drives `SCK` low. A reset in mid-read leaves the peer's state open
(93_implementation_defined.md I14, 92_eei_decisions.md D8), in the data shift and in the gain pulses alike; but out of sleep
it is the peer's power-up (70_reset_and_hazards.md R117). -/
def peerEngineReset (e : State) (new : Level) (p : Peer) : Peer :=
  if inMidRead e && p.phase ≠ .asleep then { peerLost 0 p with sck := new } else peerClock .outside new p

/-- The level the contract puts on `DIN`; none where the source gives no level. A data bit is valid in the high phase of
its pulse, most significant bit first (R92). -/
def peerDin (p : Peer) : Option Level :=
  match p.phase with
  | .converting => some 1
  | .ready _ => some 0
  | .shifting v n => if p.sck = 1 then some (v.extractLsb' (24 - n) 1) else none
  | .trailing _ => some 1
  | .asleep => none
  | .unspecified _ _ => none

/-- The engine and a peer that keeps the contract. -/
structure Bench where
  engine : State
  peer : Peer
  script : List PeerInput
deriving DecidableEq, Repr

/-- The peer after the outside's input of this step. -/
def Bench.peerNow (b : Bench) : Peer :=
  match b.script with
  | i :: _ => peerInput b.engine i b.peer
  | [] => b.peer

/-- The peer after the engine went from `e` to `e'`. -/
def peerAfter (e e' : State) (p : Peer) : Peer :=
  if resetAsserted e then peerEngineReset e e'.sckl p else peerClock (pulseOf e) e'.sckl p

/-- One step of the engine with the peer's level on `DIN`, and the peer's answer to the level on `SCK`. -/
def benchStep (b : Bench) : Host.Outcome Bench Fault Refusal :=
  match step { b.engine with dinIn := (peerDin b.peerNow).toList } with
  | .next e =>
    .next { engine := { e with dinIn := [] }, peer := peerAfter b.engine e b.peerNow, script := b.script.tail }
  | .fault f => .fault f
  | .refused r => .refused r

/-- `k` steps of the bench. -/
def benchRun : Nat → Bench → Host.Outcome Bench Fault Refusal
  | 0, b => .next b
  | k + 1, b =>
    match benchStep b with
    | .next b' => benchRun k b'
    | .fault f => .fault f
    | .refused r => .refused r

end Sys2Proof.Machine
end

