-- ==== Sys2Proof/Machine/TraceView.lean ====
section
/-! DEFINITION. Views of the event history `TRACE` (spec/10_state.md R27): its sub-lists, the level history of `SCK`, the
event sequences of a read (41_read.md R73, 42_gain_select.md R82) and the value of a bit list sent most significant bit
first (20_memory.md R35, R36). Nothing the engine does reads them. -/

namespace Sys2Proof.Machine

/-- The levels of the `W` events, in order. -/
def writesOf (t : List Event) : List Level :=
  t.filterMap fun e => match e with
    | .w v => some v
    | .s _ => none
    | .c _ => none
    | .r _ => none

/-- The levels of the `S` events, in order. -/
def samplesOf (t : List Event) : List Level :=
  t.filterMap fun e => match e with
    | .w _ => none
    | .s d => some d
    | .c _ => none
    | .r _ => none

/-- The accepted command words, in order. -/
def acceptedOf (t : List Event) : List CmdWord :=
  t.filterMap fun e => match e with
    | .w _ => none
    | .s _ => none
    | .c word => some word
    | .r _ => none

/-- The response words, in order. -/
def responsesOf (t : List Event) : List RspWord :=
  t.filterMap fun e => match e with
    | .w _ => none
    | .s _ => none
    | .c _ => none
    | .r v => some v

/-- The event is a write of `SCK`. -/
def isWrite (e : Event) : Bool :=
  match e with
  | .w _ => true
  | .s _ => false
  | .c _ => false
  | .r _ => false

/-- The event is a pin event: a `PinWrite` or a `PinSample` (10_state.md R32). -/
def isPinEvent (e : Event) : Bool :=
  match e with
  | .w _ => true
  | .s _ => true
  | .c _ => false
  | .r _ => false

/-- The level history of `SCK`: the level before the events, then the levels written (R27). -/
def levelHistory (start : Level) (t : List Event) : List Level := start :: writesOf t

/-- The level of `SCK` after the events. -/
def levelAfter (start : Level) (t : List Event) : Level := (writesOf t).getLast?.getD start

/-- The word is illegal (30_encoding.md R49): it decodes to no command. -/
def isIllegalWord (word : CmdWord) : Bool :=
  match decode word with
  | .ok _ => false
  | .error _ => true

/-- `GAINP` after a list of accepted words, from the value before them: the recognised codes of `SETGAIN` write it, and
nothing else does (10_state.md R19, 42_gain_select.md R78). -/
def gainpAfter (g : BitVec 2) (words : List CmdWord) : BitVec 2 :=
  words.foldl (fun acc word =>
    match decode word with
    | .ok (.setgain code) => (gainPulsesOf code).getD acc
    | .ok .pdown => acc
    | .ok .pup => acc
    | .ok .ready => acc
    | .ok .read => acc
    | .error _ => acc) g

/-- One data pulse: high, sample, low (00_scope.md R13). -/
def dataPulse (d : Level) : List Event := [.w 1, .s d, .w 0]

/-- The data pulses of a list of samples (41_read.md R73). -/
def dataPulses (ds : List Level) : List Event := ds.flatMap dataPulse

/-- `n` gain pulses: high, low, no sample (00_scope.md R13). -/
def gainPulses (n : Nat) : List Event := (List.replicate n [Event.w 1, Event.w 0]).flatten

/-- The polls of a read: `k` that read 1, then the one that reads 0 (41_read.md R73). -/
def polls (k : Nat) : List Event := List.replicate k (.s 1) ++ [.s 0]

/-- The events of a read sequence behind its acceptance: `k` polls that read 1, the one that reads 0, the data pulses, `g`
gain pulses and the response (41_read.md R73, 42_gain_select.md R82). -/
def readSequence (k : Nat) (ds : List Level) (g : Nat) (v : RspWord) : List Event :=
  polls k ++ dataPulses ds ++ gainPulses g ++ [.r v]

/-- The value of a bit list sent most significant bit first: the sum of `d_k · 2^(n−k)` (41_read.md R67). -/
def msbFirst (ds : List Level) : Nat :=
  (ds.zipIdx.map fun p => p.1.toNat * 2 ^ (ds.length - 1 - p.2)).sum

/-- The `j`-th group of eight samples, `j` from 0 (20_memory.md R36). -/
def groupOf (j : Nat) (ds : List Level) : List Level := (ds.drop (literals.nGroup * j)).take literals.nGroup

end Sys2Proof.Machine
end

