-- ==== Sys2Proof/Machine/Platform.lean ====
section
/-! DEFINITION. Several engine instances on one platform (spec/60_exceptions.md R98, R99). Each has its own state. Two
that drive one shared clock line in the same step are a race the spec gives no level for: the platform stops. -/

namespace Sys2Proof.Machine

/-- The instance's own step where it moves and has one; else it stays. -/
def moveOne (move : Bool) (s : State) : State :=
  if move then
    match step s with
    | .next s' => s'
    | .fault _ => s
    | .refused _ => s
  else s

/-- The instance drives its clock line in this step: it moves, and its step is a reset (which drives `SCK` low,
70_reset_and_hazards.md R105) or appends a `W` event. -/
def drivesSck (move : Bool) (s : State) : Bool :=
  move && (resetAsserted s || ((moveOne move s).trace.drop s.trace.length).any isWrite)

/-- The clock lines driven in this step, one entry for each instance that drives. -/
def drivenLines : List Bool → List State → List Nat
  | [], _ => []
  | _, [] => []
  | m :: ms, s :: ss =>
    if drivesSck m s then s.cfg.clockPin :: drivenLines ms ss else drivenLines ms ss

/-- Every instance that the mask names moves; the others stay. -/
def moveAll : List Bool → List State → List State
  | [], ss => ss
  | _, [] => []
  | m :: ms, s :: ss => moveOne m s :: moveAll ms ss

/-- One step of a platform: the instances the mask names move at once. -/
def platformStep (mask : List Bool) (es : List State) : Host.Outcome (List State) Fault Refusal :=
  if (drivenLines mask es).Nodup then .next (moveAll mask es) else .fault .sharedClockWrite

end Sys2Proof.Machine
end

