-- ==== Sys2Proof/Safety.lean ====
section
/-! DEFINITION. What counts as a safe state and a clean run: the invariants of spec/10_state.md R29, the agreement of the
registers with the event history, the end of a run (60_exceptions.md R104) and the hang (R87). -/

namespace Sys2Proof.Machine

/-- The invariants of 10_state.md R29, with the ranges of R25 and R26 and the line directions of R17. -/
structure Inv (s : State) : Prop where
  /-- R29 item 1 -/
  gainpLegal : s.gainp = 1 ∨ s.gainp = 2 ∨ s.gainp = 3
  /-- R29 item 2 -/
  idleNotBusy : s.phase = .idle → s.busy = 0
  /-- R29 item 3 -/
  dataPhase : s.phase = .drise ∨ s.phase = .dsamp → s.bitcnt.toNat ≤ 23
  /-- R29 item 3 -/
  dfallPhase : s.phase = .dfall → 1 ≤ s.bitcnt.toNat ∧ s.bitcnt.toNat ≤ 24
  /-- R29 item 4 -/
  gainPhase : s.phase = .grise ∨ s.phase = .gfall → s.bitcnt = 24 ∧ s.pulsecnt.toNat < s.gainp.toNat
  /-- R29 item 5 -/
  highPhase : s.phase = .dsamp ∨ s.phase = .dfall ∨ s.phase = .gfall → s.sckl = 1
  /-- R29 item 5 -/
  lowPhase : s.phase = .grise ∨ s.phase = .pdhi → s.sckl = 0
  /-- R29 item 5 -/
  lowDrise : s.phase = .drise → 1 ≤ s.bitcnt.toNat → s.sckl = 0
  /-- R26: `BITCNT` is 0 to 24 -/
  bitcntRange : s.bitcnt.toNat ≤ 24
  /-- R25: `PDHI` is reached only under `LOW_THEN_HIGH` -/
  pdhiForm : s.phase = .pdhi → s.cfg.pdownForm = .lowThenHigh
  /-- R17: the line directions are fixed -/
  sckOutput : s.sckDir = .output
  /-- R17 -/
  dinInput : s.dinDir = .input

/-- The registers agree with the event history since reset. -/
structure TraceInv (s : State) : Prop where
  /-- R16: only `PinWrite` writes `SCKL`, and reset leaves it 0 -/
  level : s.sckl = levelAfter 0 s.trace
  /-- R24: `RSP` holds the last response -/
  response : s.rsp = (responsesOf s.trace).getLast?.getD 0
  /-- R24: every accepted command reaches exactly one response -/
  balance : (acceptedOf s.trace).length = (responsesOf s.trace).length + (if s.phase = .idle then 0 else 1)
  /-- R28: `ILL` is set by an illegal word and by nothing else -/
  illegal : s.ill = (acceptedOf s.trace).any isIllegalWord
  /-- R22: `BADCMD` holds the last illegal word -/
  badWord : s.badcmd = ((acceptedOf s.trace).filter isIllegalWord).getLast?.getD 0
  /-- R19: `GAINP` is written by `SETGAIN` only -/
  gain : s.gainp = gainpAfter 1 (acceptedOf s.trace)

/-- The run has taken no illegal word (60_exceptions.md R83, 93_implementation_defined.md I1). -/
def Clean (s : State) : Prop := s.ill = false

/-- The run of a host program, a finite list of command words, has ended (60_exceptions.md R104): since reset the engine
has accepted exactly its words, it has answered each of them and it is idle with nothing left to accept. A command that a
reset abandons is not answered, and `TRACE` no longer lists it. -/
structure RunEnded (program : List CmdWord) (s : State) : Prop where
  /-- `PHASE = IDLE` -/
  idle : s.phase = .idle
  /-- the program is used up -/
  noneLeft : s.offers = []
  /-- the accepted words are the program's -/
  accepted : acceptedOf s.trace = program
  /-- each has its response -/
  answered : (responsesOf s.trace).length = program.length

/-- The bound of 70_reset_and_hazards.md R108 on the open parameter `T_HIGH`: a platform's duty. -/
def PulseWidthBound : Prop := Config.tHigh < literals.tPdMin

/-- No reset is asserted at the next `k` steps. -/
def NoReset (k : Nat) (s : State) : Prop := ∀ r ∈ s.resets.take k, r = false

/-- `k` steps of the machine. -/
abbrev run (k : Nat) (s : State) : Host.Outcome State Fault Refusal := Host.Core.run Sys2Proof.core k s

/-- The hang (60_exceptions.md R87, R104): the engine stays in `WAIT` for ever. -/
def Hung (s : State) : Prop := ∀ k : Nat, ∃ t, run k s = .next t ∧ t.phase = .wait

end Sys2Proof.Machine
end

