-- ==== Sys2Proof/Certificates/Slice0/Obligations.lean ====
section
/-! DEFINITION. The statements for the provers, from the numbered rules of spec/. -/

open Sys2Proof Sys2Proof.Machine

/-! ### Reset -/

/-- 10_state.md R31: every piece of state at the value of its table. -/
def Obligations.ResetStateHoldsTheTable : Prop :=
  State.reset.sckDir = .output ∧ State.reset.dinDir = .input ∧ State.reset.sckl = 0 ∧ State.reset.gainp = 1 ∧
  State.reset.busy = 0 ∧ State.reset.illBit = 0 ∧ State.reset.badcmd = 0x0000 ∧ State.reset.rsp = 0x00000000 ∧
  State.reset.phase = .idle ∧ State.reset.cur = .read ∧ State.reset.shift = 0x000000 ∧ State.reset.bitcnt = 0 ∧
  State.reset.pulsecnt = 0 ∧ State.reset.trace = [] ∧ State.reset.status = 0x10

/-- 70_reset_and_hazards.md R105, R106; 60_exceptions.md R86: a step with reset asserted gives the reset values whatever
the state before, performs no sample, takes no offered word and appends no event. That it is a step of its own and keeps the
inputs is the model's choice (assumptions 3, 14). -/
def Obligations.ResetGivesTheTableFromAnyState : Prop :=
  ∀ (s : State) (rest : List Bool), s.resets = true :: rest →
    step s = .next
      { sckl := 0, gainp := 1, ill := false, badcmd := 0x0000, rsp := 0x00000000, phase := .idle, cur := .read
        shift := 0x000000, bitcnt := 0, pulsecnt := 0, trace := [], sckDir := .output, dinDir := .input
        cfg := s.cfg, offers := s.offers, resets := rest, dinIn := s.dinIn, dinCount := s.dinCount }

/-! ### Encoding -/

/-- 30_encoding.md R57: its table, text to word and word to command. -/
def Obligations.EncodingExamples : Prop :=
  (assembleLine ['p', 'd', 'o', 'w', 'n'] = .word 0x0001 ∧ decode 0x0001 = .ok .pdown) ∧
  (assembleLine ['p', 'u', 'p'] = .word 0x0002 ∧ decode 0x0002 = .ok .pup) ∧
  (assembleLine ['r', 'e', 'a', 'd', 'y'] = .word 0x0003 ∧ decode 0x0003 = .ok .ready) ∧
  (assembleLine ['r', 'e', 'a', 'd'] = .word 0x0004 ∧ decode 0x0004 = .ok .read) ∧
  (assembleLine ['s', 'e', 't', 'g', 'a', 'i', 'n', ' ', '1', '2', '8'] = .word 0x8005 ∧
    decode 0x8005 = .ok (.setgain 128) ∧ (gainPulsesOf 128).isSome) ∧
  (assembleLine ['s', 'e', 't', 'g', 'a', 'i', 'n', ' ', '6', '4'] = .word 0x4005 ∧
    decode 0x4005 = .ok (.setgain 64) ∧ (gainPulsesOf 64).isSome) ∧
  (assembleLine ['s', 'e', 't', 'g', 'a', 'i', 'n', ' ', '3', '2'] = .word 0x2005 ∧
    decode 0x2005 = .ok (.setgain 32) ∧ (gainPulsesOf 32).isSome) ∧
  (assembleLine ['s', 'e', 't', 'g', 'a', 'i', 'n', ' ', '9', '9'] = .word 0x6305 ∧
    decode 0x6305 = .ok (.setgain 99) ∧ gainPulsesOf 99 = none) ∧
  (assembleLine ['s', 'e', 't', 'g', 'a', 'i', 'n', ' ', '0'] = .word 0x0005 ∧
    decode 0x0005 = .ok (.setgain 0) ∧ gainPulsesOf 0 = none) ∧
  (assembleLine ['.', 'w', 'o', 'r', 'd', ' ', '0', 'x', '0', '0', '0', '0'] = .word 0x0000 ∧
    decode 0x0000 = .error .reservedOp) ∧
  (assembleLine ['.', 'w', 'o', 'r', 'd', ' ', '0', 'x', '0', '1', '0', '4'] = .word 0x0104 ∧
    decode 0x0104 = .error .nonzeroArg) ∧
  (assembleLine ['.', 'w', 'o', 'r', 'd', ' ', '0', 'x', '0', '0', '1', '4'] = .word 0x0014 ∧
    decode 0x0014 = .error .reservedField) ∧
  (assembleLine ['.', 'w', 'o', 'r', 'd', ' ', '0', 'x', '8', '0', '1', '5'] = .word 0x8015 ∧
    decode 0x8015 = .error .reservedField) ∧
  (assembleLine ['.', 'w', 'o', 'r', 'd', ' ', '0', 'x', '0', '0', '0', 'F'] = .word 0x000F ∧
    decode 0x000F = .error .reservedOp)

/-- 30_encoding.md R46 to R48: decoding and encoding agree both ways, on every word and every command. -/
def Obligations.DecodeAndEncodeAgree : Prop :=
  ∀ (w : CmdWord) (i : Instr), decode w = .ok i ↔ (i.wellFormed = true ∧ encode i = w)

/-- 30_encoding.md R49: the illegal words are the listed ones, and accepting one raises `IllegalCommand` whatever the
state of the registers. -/
def Obligations.IllegalWordsAreTheListed : Prop :=
  ∀ w : CmdWord,
    ((∃ e, decode w = .error e) ↔
      (w.toNat % 16 = 0 ∨ 6 ≤ w.toNat % 16 ∨ w.toNat / 16 % 16 ≠ 0 ∨
        (1 ≤ w.toNat % 16 ∧ w.toNat % 16 ≤ 4 ∧ w.toNat / 256 ≠ 0))) ∧
    ((∃ e, decode w = .error e) →
      ∀ (s : State) (os : List CmdWord), s.phase = .idle → s.offers = w :: os → resetAsserted s = false →
        ∃ t, step s = .next t ∧ t.ill = true ∧ t.badcmd = w ∧ t.phase = .idle)

/-- 30_encoding.md R53: one word each for the four plain commands, 256 for `SETGAIN` (three with a recognised code), and
65,276 illegal words. -/
def Obligations.WordCounts : Prop :=
  (∀ w : CmdWord, (decode w = .ok .pdown ↔ w = 0x0001) ∧ (decode w = .ok .pup ↔ w = 0x0002) ∧
    (decode w = .ok .ready ↔ w = 0x0003) ∧ (decode w = .ok .read ↔ w = 0x0004)) ∧
  (∀ w : CmdWord, (∃ code, decode w = .ok (.setgain code)) ↔ ∃ n < 256, w.toNat = 256 * n + 5) ∧
  (∀ (w : CmdWord) (code : BitVec 32), decode w = .ok (.setgain code) →
    ((gainPulsesOf code).isSome ↔ w = 0x8005 ∨ w = 0x4005 ∨ w = 0x2005)) ∧
  (Finset.univ.filter fun n : Fin 65536 => isIllegalWord (BitVec.ofNat 16 n.val) = false).card = 260 ∧
  (Finset.univ.filter fun n : Fin 65536 => isIllegalWord (BitVec.ofNat 16 n.val) = true).card = 65276

/-- 30_encoding.md R56: how each word prints, and that assembling the printed text gives the word back. -/
def Obligations.DisassemblyIsTheInverseOfAssembly : Prop :=
  (∀ w : CmdWord, assembleLine (disassemble w) = .word w) ∧
  disassemble 0x0001 = ['p', 'd', 'o', 'w', 'n'] ∧ disassemble 0x0002 = ['p', 'u', 'p'] ∧
  disassemble 0x0003 = ['r', 'e', 'a', 'd', 'y'] ∧ disassemble 0x0004 = ['r', 'e', 'a', 'd'] ∧
  (∀ (w : CmdWord) (code : BitVec 32), decode w = .ok (.setgain code) →
    ∃ ds, disassemble w = ['s', 'e', 't', 'g', 'a', 'i', 'n', ' '] ++ ds ∧ (∀ c ∈ ds, c.isDigit) ∧
      digitsValue 10 0 ds = some code.toNat) ∧
  (∀ (w : CmdWord) (e : DecodeError), decode w = .error e →
    ∃ a b c d, disassemble w = ['.', 'w', 'o', 'r', 'd', ' ', '0', 'x', a, b, c, d] ∧
      (∀ x ∈ [a, b, c, d], x ∈ ['0', '1', '2', '3', '4', '5', '6', '7', '8', '9', 'A', 'B', 'C', 'D', 'E', 'F']) ∧
      digitsValue 16 0 [a, b, c, d] = some w.toNat)

/-- 30_encoding.md R55, R54: the three pseudo-instructions, their expansions and their words, and no other: a line that
gives a word is a mnemonic alone, one of the three alone, `setgain` with one operand or `.word` with one operand. -/
def Obligations.PseudoInstructionsExpand : Prop :=
  (assembleLine textGainA128 = assembleLine (textSetgain ++ [' ', '1', '2', '8']) ∧
    assembleLine textGainA128 = .word 0x8005 ∧ decode 0x8005 = .ok (.setgain 128) ∧
    gainPulsesOf 128 = some 1 ∧ modeOfPulses 1 = some .a128) ∧
  (assembleLine textGainB32 = assembleLine (textSetgain ++ [' ', '3', '2']) ∧
    assembleLine textGainB32 = .word 0x2005 ∧ decode 0x2005 = .ok (.setgain 32) ∧
    gainPulsesOf 32 = some 2 ∧ modeOfPulses 2 = some .b32) ∧
  (assembleLine textGainA64 = assembleLine (textSetgain ++ [' ', '6', '4']) ∧
    assembleLine textGainA64 = .word 0x4005 ∧ decode 0x4005 = .ok (.setgain 64) ∧
    gainPulsesOf 64 = some 3 ∧ modeOfPulses 3 = some .a64) ∧
  (∀ (t : List Char) (w : CmdWord), assembleOne t = .word w →
    t ∈ [textPdown, textPup, textReady, textRead, textGainA128, textGainB32, textGainA64]) ∧
  (∀ (line : List Char) (w : CmdWord), assembleLine line = .word w →
    tokens line ∈ [[textPdown], [textPup], [textReady], [textRead], [textGainA128], [textGainB32], [textGainA64]] ∨
    (∃ a, tokens line = [textSetgain, a]) ∨ (∃ a, tokens line = [textWord, a]))

/-- 30_encoding.md R54: `setgain CODE` takes exactly the codes 0 to 255; a value outside the range is refused, not
truncated. What counts as a number is assumption 9. -/
def Obligations.AssemblerRefusesCodesOutOfRange : Prop :=
  ∀ a : List Char,
    (∀ n, numberValue a = some n → n < 256 → assembleTwo textSetgain a = .word (encode (.setgain (BitVec.ofNat 32 n))) ∧
      decode (encode (.setgain (BitVec.ofNat 32 n))) = .ok (.setgain (BitVec.ofNat 32 n))) ∧
    (∀ n, numberValue a = some n → 256 ≤ n → assembleTwo textSetgain a = .bad) ∧
    (numberValue a = none → assembleTwo textSetgain a = .bad)

/-! ### Acceptance -/

/-- 10_state.md R24, 30_encoding.md R52: a step in `IDLE` with a word offered that decodes to a command is that command's
execution, after the word is taken and `C(word)` appended. -/
def Obligations.StepRunsTheDecodedCommand : Prop :=
  ∀ (s : State) (w : CmdWord) (os : List CmdWord) (i : Instr),
    s.phase = .idle → s.offers = w :: os → resetAsserted s = false → decode w = .ok i →
      step s = exec i { s with offers := os, resets := s.resets.tail, trace := s.trace ++ [.c w] }

/-- 60_exceptions.md R85: the exception, in full: only `ILL`, `BADCMD`, `RSP`, `PHASE` and `TRACE` change (and the inputs
the step used up). -/
def Obligations.IllegalCommandIsPrecise : Prop :=
  ∀ (s : State) (w : CmdWord) (os : List CmdWord) (e : DecodeError),
    s.phase = .idle → s.offers = w :: os → resetAsserted s = false → decode w = .error e →
      step s = .next
        { s with
          ill := true, badcmd := w, rsp := 0x00000000, phase := .idle, trace := s.trace ++ [.c w, .r 0x00000000]
          offers := os, resets := s.resets.tail }

/-- 10_state.md R32: the engine has a step unless it is idle with nothing offered (and no reset); then the model refuses by
name, and it never faults. That it refuses is the model's choice (assumption 2). -/
def Obligations.StepExistsUnlessNothingIsOffered : Prop :=
  ∀ s : State,
    ((∃ t, step s = .next t) ↔ (resetAsserted s = true ∨ s.phase ≠ .idle ∨ s.offers ≠ [])) ∧
    (resetAsserted s = false → s.phase = .idle → s.offers = [] → step s = .refused .noCommandOffered)

/-! ### Line control -/

/-- 40_line_control.md R58: `PDOWN` under either value of `PDOWN_FORM`, and its second step. -/
def Obligations.PdownDrivesTheClockHigh : Prop :=
  ∀ s : State,
    (s.cfg.pdownForm = .highOnly →
      exec .pdown s = .next
        { s with sckl := 1, rsp := 0x00000000, phase := .idle, trace := s.trace ++ [.w 1, .r 0x00000000] }) ∧
    (s.cfg.pdownForm = .lowThenHigh →
      exec .pdown s = .next { s with sckl := 0, phase := .pdhi, trace := s.trace ++ [.w 0] }) ∧
    (s.phase = .pdhi → resetAsserted s = false →
      step s = .next
        { s with
          sckl := 1, rsp := 0x00000000, phase := .idle, trace := s.trace ++ [.w 1, .r 0x00000000]
          resets := s.resets.tail })

/-- 40_line_control.md R59: `PUP`, also where the line is low already. -/
def Obligations.PupDrivesTheClockLow : Prop :=
  ∀ s : State,
    exec .pup s = .next
      { s with sckl := 0, rsp := 0x00000000, phase := .idle, trace := s.trace ++ [.w 0, .r 0x00000000] }

/-- 40_line_control.md R60: `READY`, with a level the environment has fixed and with a free one (assumption 1). -/
def Obligations.ReadyReportsTheLine : Prop :=
  ∀ s : State,
    (∀ (d : Level) (ds : List Level), s.dinIn = d :: ds →
      exec .ready s = .next
        { s with
          rsp := if d = 0 then 0x00000001 else 0x00000000
          phase := .idle
          trace := s.trace ++ [.s d, .r (if d = 0 then 0x00000001 else 0x00000000)]
          dinIn := ds }) ∧
    (s.dinIn = [] →
      exec .ready s = .next
        { s with
          rsp := if Config.dinDraw s.cfg.dataPin s.dinCount = 0 then 0x00000001 else 0x00000000
          phase := .idle
          trace := s.trace ++
            [.s (Config.dinDraw s.cfg.dataPin s.dinCount), .r (if Config.dinDraw s.cfg.dataPin s.dinCount = 0 then 0x00000001 else 0x00000000)]
          dinCount := s.dinCount + 1 })

/-- 40_line_control.md R61: `PDOWN` then `PUP` from the idle level 0: low, high, low, under either form; the `W` sub-list
is exactly the rule's. -/
def Obligations.PdownThenPupGivesLowHighLow : Prop :=
  ∀ (s : State) (os : List CmdWord),
    s.phase = .idle → s.sckl = 0 → s.offers = 0x0001 :: 0x0002 :: os → NoReset 3 s →
      (s.cfg.pdownForm = .highOnly →
        ∃ t ev, run 2 s = .next t ∧ t.trace = s.trace ++ ev ∧ writesOf ev = [1, 0] ∧
          levelHistory s.sckl ev = [0, 1, 0] ∧ t.phase = .idle ∧ t.sckl = 0) ∧
      (s.cfg.pdownForm = .lowThenHigh →
        ∃ t ev, run 3 s = .next t ∧ t.trace = s.trace ++ ev ∧ writesOf ev = [0, 1, 0] ∧
          (levelHistory s.sckl ev).destutter (· ≠ ·) = [0, 1, 0] ∧ t.phase = .idle ∧ t.sckl = 0)

/-- 40_line_control.md R62: `READY` changes nothing but `RSP` and `TRACE`, and two of them on the same level answer the
same. -/
def Obligations.ReadyIsIdempotent : Prop :=
  ∀ (s : State) (os : List CmdWord) (d : Level) (ds : List Level),
    s.phase = .idle → s.offers = 0x0003 :: 0x0003 :: os → s.dinIn = d :: d :: ds → NoReset 2 s →
      ∃ t u, run 1 s = .next t ∧ run 2 s = .next u ∧ u.rsp = t.rsp ∧
        t = { s with rsp := t.rsp, trace := t.trace, offers := t.offers, resets := t.resets, dinIn := t.dinIn } ∧
        u = { t with trace := u.trace, offers := u.offers, resets := u.resets, dinIn := u.dinIn } ∧
        writesOf u.trace = writesOf s.trace

/-! ### The read sequence -/

/-- 41_read.md R63: the acceptance step of `READ`: no pin event, `BUSY` reads 1 after it. -/
def Obligations.ReadBegins : Prop :=
  ∀ s : State, exec .read s = .next { s with cur := .read, phase := .wait } ∧
    State.busy { s with cur := .read, phase := .wait } = 1

/-- 41_read.md R64: one poll, for a fixed or a free level, with the whole state after it but for the `DIN` inputs, and the
unbounded spin: as long as every poll reads 1 the state stays, and one `S(1)` is appended a step. -/
def Obligations.PollSpinsUntilReady : Prop :=
  ∀ s : State, s.phase = .wait →
    (NoReset 1 s → dinNow s = 0 →
      ∃ t, step s = .next t ∧
        t = { s with
          trace := s.trace ++ [.s 0], shift := 0x000000, bitcnt := 0, phase := .drise
          resets := s.resets.tail, dinIn := t.dinIn, dinCount := t.dinCount }) ∧
    (NoReset 1 s → dinNow s = 1 →
      ∃ t, step s = .next t ∧
        t = { s with
          trace := s.trace ++ [.s 1], resets := s.resets.tail, dinIn := t.dinIn, dinCount := t.dinCount }) ∧
    (∀ (k : Nat) (ds : List Level), NoReset k s → s.dinIn = List.replicate k 1 ++ ds →
      run k s = .next
        { s with trace := s.trace ++ List.replicate k (.s 1), dinIn := ds, resets := s.resets.drop k })

/-- 41_read.md R65, R66, R68: the three steps of a data pulse, with a level the environment has fixed and with a free one
(assumption 1). -/
def Obligations.DataPulseSteps : Prop :=
  ∀ s : State, resetAsserted s = false →
    (s.phase = .drise →
      step s = .next { s with sckl := 1, trace := s.trace ++ [.w 1], phase := .dsamp, resets := s.resets.tail }) ∧
    (∀ (d : Level) (ds : List Level), s.phase = .dsamp → s.dinIn = d :: ds →
      step s = .next
        { s with
          trace := s.trace ++ [.s d]
          shift := (s.shift <<< 1) ||| d.setWidth 24
          bitcnt := s.bitcnt + 1
          phase := .dfall
          dinIn := ds
          resets := s.resets.tail }) ∧
    (s.phase = .dsamp → s.dinIn = [] →
      step s = .next
        { s with
          trace := s.trace ++ [.s (Config.dinDraw s.cfg.dataPin s.dinCount)]
          shift := (s.shift <<< 1) ||| (Config.dinDraw s.cfg.dataPin s.dinCount).setWidth 24
          bitcnt := s.bitcnt + 1
          phase := .dfall
          dinCount := s.dinCount + 1
          resets := s.resets.tail }) ∧
    (s.phase = .dfall → s.bitcnt = 24 →
      step s = .next
        { s with sckl := 0, trace := s.trace ++ [.w 0], pulsecnt := 0, phase := .grise, resets := s.resets.tail }) ∧
    (s.phase = .dfall → s.bitcnt ≠ 24 →
      step s = .next { s with sckl := 0, trace := s.trace ++ [.w 0], phase := .drise, resets := s.resets.tail })

/-- 41_read.md R69, R70, R72: the two steps of a gain pulse, and the end of a read sequence for either command. -/
def Obligations.GainPulseStepsAndFinish : Prop :=
  ∀ s : State, resetAsserted s = false →
    (s.phase = .grise →
      step s = .next { s with sckl := 1, trace := s.trace ++ [.w 1], phase := .gfall, resets := s.resets.tail }) ∧
    (s.phase = .gfall → s.pulsecnt + 1 ≠ s.gainp →
      step s = .next
        { s with
          sckl := 0, trace := s.trace ++ [.w 0], pulsecnt := s.pulsecnt + 1, phase := .grise
          resets := s.resets.tail }) ∧
    (s.phase = .gfall → s.pulsecnt + 1 = s.gainp → s.cur = .read →
      step s = .next
        { s with
          sckl := 0, pulsecnt := s.pulsecnt + 1, rsp := s.shift.signExtend 32, phase := .idle
          trace := s.trace ++ [.w 0, .r (s.shift.signExtend 32)]
          resets := s.resets.tail }) ∧
    (s.phase = .gfall → s.pulsecnt + 1 = s.gainp → s.cur = .setgain →
      step s = .next
        { s with
          sckl := 0, pulsecnt := s.pulsecnt + 1, rsp := 0x00000000, phase := .idle
          trace := s.trace ++ [.w 0, .r 0x00000000]
          resets := s.resets.tail })

/-- 41_read.md R67, 20_memory.md R35, R36: after readiness, whatever the register held before and whether the levels are
fixed or free, `SHIFT` is the sum of the 24 samples' weights, sample `k` is bit `24 − k`, and the three groups assemble to
the same value. -/
def Obligations.ShiftRegisterHoldsTheSamples : Prop :=
  ∀ s : State, s.phase = .wait → dinNow s = 0 → NoReset 73 s →
    ∃ (t : State) (ds : List Level), run 73 s = .next t ∧ ds.length = 24 ∧
      t.trace = s.trace ++ .s 0 :: dataPulses ds ∧ t.phase = .grise ∧ t.bitcnt = 24 ∧ t.pulsecnt = 0 ∧
      t.shift.toNat = ∑ k ∈ Finset.range 24, (ds.getD k 0).toNat * 2 ^ (23 - k) ∧
      (∀ k < 24, t.shift.getLsbD (23 - k) = decide (ds.getD k 0 = 1)) ∧
      t.shift.toNat =
        (msbFirst (groupOf 0 ds) <<< 16) ||| (msbFirst (groupOf 1 ds) <<< 8) ||| msbFirst (groupOf 2 ds)

/-- 41_read.md R71: two's complement, its range, and the response words. -/
def Obligations.SignExtensionOfAReading : Prop :=
  ∀ v : Reading,
    (sext32 v).toInt = (if v.getLsbD 23 then (v.toNat : Int) - 2 ^ 24 else (v.toNat : Int)) ∧
    -8388608 ≤ (sext32 v).toInt ∧ (sext32 v).toInt ≤ 8388607 ∧
    (v.getLsbD 23 = false → (sext32 v).toNat ≤ 0x007FFFFF) ∧
    (v.getLsbD 23 = true → 0xFF800000 ≤ (sext32 v).toNat)

/-- 41_read.md R75: every value of the range is the reading of exactly one 24-bit pattern; the boundary values. -/
def Obligations.ReadingsAreABijection : Prop :=
  (∀ n : Int, -8388608 ≤ n → n ≤ 8388607 → ∃! v : Reading, (sext32 v).toInt = n) ∧
  sext32 0x000000 = 0x00000000 ∧ sext32 0xFFFFFF = 0xFFFFFFFF ∧ sext32 0x7FFFFF = 0x007FFFFF ∧
  sext32 0x800000 = 0xFF800000

/-- 41_read.md R73: one `READ`, from any idle state with a legal `GAINP` and either level of `SCK`: its exact events, its
number of steps, and the whole state after it; and its events while no poll reads 0. -/
def Obligations.ReadAppendsItsSequence : Prop :=
  ∀ (s : State) (os : List CmdWord), s.phase = .idle → s.gainp ≠ 0 → s.offers = 0x0004 :: os →
    (∀ (k : Nat) (ds more : List Level), ds.length = 24 → s.dinIn = List.replicate k 1 ++ 0 :: ds ++ more →
      NoReset (74 + k + 2 * s.gainp.toNat) s →
        run (74 + k + 2 * s.gainp.toNat) s = .next
          { s with
            sckl := 0
            rsp := sext32 (BitVec.ofNat 24 (msbFirst ds))
            phase := .idle
            cur := .read
            shift := BitVec.ofNat 24 (msbFirst ds)
            bitcnt := 24
            pulsecnt := s.gainp
            trace := s.trace ++
              .c 0x0004 :: readSequence k ds s.gainp.toNat (sext32 (BitVec.ofNat 24 (msbFirst ds)))
            offers := os
            resets := s.resets.drop (74 + k + 2 * s.gainp.toNat)
            dinIn := more } ∧
        1 + (readSequence k ds s.gainp.toNat (sext32 (BitVec.ofNat 24 (msbFirst ds)))).length =
          75 + k + 2 * s.gainp.toNat) ∧
    (∀ (k : Nat) (more : List Level), s.dinIn = List.replicate k 1 ++ more → NoReset (1 + k) s →
      ∃ t, run (1 + k) s = .next t ∧ t.phase = .wait ∧ t.trace = s.trace ++ (.c 0x0004 :: List.replicate k (.s 1)))

/-- 70_reset_and_hazards.md R122, 60_exceptions.md R87: a read leaves `WAIT` only after a poll that read 0, over any number
of steps and whether the levels are fixed or free. -/
def Obligations.ReadEndsOnlyAfterAReadyPoll : Prop :=
  ∀ (k : Nat) (s t : State), s.phase = .wait → NoReset k s → run k s = .next t →
    ∃ ev, t.trace = s.trace ++ ev ∧ (.s 0 ∉ ev → t.phase = .wait ∧ ev = List.replicate k (.s 1) ∧ t.sckl = s.sckl)

/-! ### Gain selection -/

/-- 42_gain_select.md R77, R78: the acceptance step of `SETGAIN` for every code and both values of
`SETGAIN_UNRECOGNISED_TAIL`. -/
def Obligations.SetgainAcceptance : Prop :=
  ∀ s : State,
    exec (.setgain 128) s = .next
      { s with gainp := 1, sckl := 0, trace := s.trace ++ [.w 0], cur := .setgain, phase := .wait } ∧
    exec (.setgain 64) s = .next
      { s with gainp := 3, sckl := 0, trace := s.trace ++ [.w 0], cur := .setgain, phase := .wait } ∧
    exec (.setgain 32) s = .next
      { s with gainp := 2, sckl := 0, trace := s.trace ++ [.w 0], cur := .setgain, phase := .wait } ∧
    (∀ code : BitVec 32, code ≠ 128 → code ≠ 64 → code ≠ 32 → s.cfg.setgainTail = .perform →
      exec (.setgain code) s = .next
        { s with sckl := 0, trace := s.trace ++ [.w 0], cur := .setgain, phase := .wait }) ∧
    (∀ code : BitVec 32, code ≠ 128 → code ≠ 64 → code ≠ 32 → s.cfg.setgainTail = .skip →
      exec (.setgain code) s = .next
        { s with rsp := 0x00000000, phase := .idle, trace := s.trace ++ [.r 0x00000000] })

/-- 42_gain_select.md R82: one `SETGAIN` with its tail, from any idle state: its exact events with the new `GAINP`, its
number of steps and the state after it; and the one step of an unrecognised code under `SKIP`. -/
def Obligations.SetgainAppendsItsSequence : Prop :=
  ∀ (s : State) (os : List CmdWord) (w : CmdWord) (code : BitVec 32) (g : BitVec 2),
    s.phase = .idle → s.gainp ≠ 0 → s.offers = w :: os → decode w = .ok (.setgain code) →
    g = (gainPulsesOf code).getD s.gainp →
    (∀ (k : Nat) (ds more : List Level), (gainPulsesOf code).isSome ∨ s.cfg.setgainTail = .perform →
      ds.length = 24 → s.dinIn = List.replicate k 1 ++ 0 :: ds ++ more → NoReset (74 + k + 2 * g.toNat) s →
        run (74 + k + 2 * g.toNat) s = .next
          { s with
            sckl := 0
            gainp := g
            rsp := 0x00000000
            phase := .idle
            cur := .setgain
            shift := BitVec.ofNat 24 (msbFirst ds)
            bitcnt := 24
            pulsecnt := g
            trace := s.trace ++ .c w :: .w 0 :: readSequence k ds g.toNat 0x00000000
            offers := os
            resets := s.resets.drop (74 + k + 2 * g.toNat)
            dinIn := more } ∧
        2 + (readSequence k ds g.toNat 0x00000000).length = 76 + k + 2 * g.toNat) ∧
    (gainPulsesOf code = none → s.cfg.setgainTail = .skip → resetAsserted s = false →
      step s = .next
        { s with
          rsp := 0x00000000, trace := s.trace ++ [.c w, .r 0x00000000], offers := os, resets := s.resets.tail })

/-- 10_state.md R20: the table of the three gain-pulse counts: the pulses on the line in all, the peer's mode, and the code
that selects it. -/
def Obligations.GainPulseTable : Prop :=
  (∀ (ds : List Level) (g : Nat), ds.length = 24 →
    writesOf (dataPulses ds ++ gainPulses g) = (List.replicate (24 + g) [1, 0]).flatten) ∧
  (modeOfPulses 1 = some .a128 ∧ gainPulsesOf 128 = some 1) ∧
  (modeOfPulses 2 = some .b32 ∧ gainPulsesOf 32 = some 2) ∧
  (modeOfPulses 3 = some .a64 ∧ gainPulsesOf 64 = some 3) ∧
  (∀ code : BitVec 32, code ≠ 128 → code ≠ 64 → code ≠ 32 → gainPulsesOf code = none)

/-! ### Invariants -/

/-- 10_state.md R29, R31: the invariants hold after reset. -/
def Obligations.InvariantsHoldAtReset : Prop := Inv State.reset

/-- 10_state.md R29: every step preserves the invariants, from every state that meets them. -/
def Obligations.StepKeepsTheInvariants : Prop := ∀ s t : State, Inv s → step s = .next t → Inv t

/-- 10_state.md R24, 41_read.md R76: a command in progress that is not polling ends, whatever `DIN` reads: from every
state that meets the invariants, the engine is back in `IDLE` within 78 steps, with the response appended last. -/
def Obligations.CommandPastItsPollsEnds : Prop :=
  ∀ s : State, Inv s → s.phase ≠ .idle → s.phase ≠ .wait → NoReset 78 s →
    ∃ (k : Nat) (t : State) (ev : List Event), k ≤ 78 ∧ run k s = .next t ∧ t.phase = .idle ∧
      t.trace = s.trace ++ ev ∧ ev.getLast? = some (.r t.rsp) ∧ responsesOf ev = [t.rsp] ∧ acceptedOf ev = []

/-- 60_exceptions.md R104, R87; 10_state.md R24: the run of any list of offered words, with no reset, ends or hangs: from
every idle state that meets the invariants with an empty `TRACE`, either the engine comes to accept and answer every word,
or it comes to stay in `WAIT` for ever. -/
def Obligations.RunEndsOrHangs : Prop :=
  ∀ (s : State) (program : List CmdWord), Inv s → s.phase = .idle → s.trace = [] → s.resets = [] → s.offers = program →
    (∃ k t, run k s = .next t ∧ RunEnded program t) ∨ (∃ k t, run k s = .next t ∧ Hung t)

/-- 60_exceptions.md R104, 70_reset_and_hazards.md R106: a run still in `WAIT` has not ended, and a reset that abandons a
command does not end the run of a program that has one. -/
def Obligations.WaitAndResetAreNoEnd : Prop :=
  (∀ (program : List CmdWord) (s : State), s.phase = .wait → ¬RunEnded program s) ∧
  (∀ (program : List CmdWord) (s t : State), program ≠ [] → resetAsserted s = true → step s = .next t →
    ¬RunEnded program t)

/-- 10_state.md R27, R31: the registers agree with the empty history after reset. -/
def Obligations.HistoryAgreesAtReset : Prop := TraceInv State.reset

/-- 10_state.md R16, R19, R22, R24, R27, R28: every step keeps the registers in agreement with the event history. -/
def Obligations.StepKeepsTheHistoryAgreement : Prop := ∀ s t : State, TraceInv s → step s = .next t → TraceInv t

/-! ### Whole-machine rules -/

/-- 10_state.md R19, 42_gain_select.md R78: no step but reset and a `SETGAIN` with a recognised code changes `GAINP`. -/
def Obligations.GainpChangesOnlyBySetgain : Prop :=
  ∀ s t : State, step s = .next t → resetAsserted s = false → t.gainp ≠ s.gainp →
    s.phase = .idle ∧ ∃ w os code, s.offers = w :: os ∧ decode w = .ok (.setgain code) ∧
      ((code = 128 ∧ t.gainp = 1) ∨ (code = 64 ∧ t.gainp = 3) ∨ (code = 32 ∧ t.gainp = 2))

/-- 10_state.md R22, R28; 60_exceptions.md R83, R88: `ILL` is set by an illegal word and by nothing else, and only reset
clears it; `BADCMD` takes that word and nothing else. -/
def Obligations.IllIsStickyAndBadcmdTheLastWord : Prop :=
  ∀ s t : State, step s = .next t → resetAsserted s = false →
    (t.ill = s.ill ∧ t.badcmd = s.badcmd ∧
      ¬(s.phase = .idle ∧ ∃ w os e, s.offers = w :: os ∧ decode w = .error e)) ∨
    (s.phase = .idle ∧ ∃ w os e, s.offers = w :: os ∧ decode w = .error e ∧ t.ill = true ∧ t.badcmd = w)

/-- 10_state.md R27, R28: no step reads `ILL`, `BADCMD`, `RSP` or `TRACE`: what the step writes to each of the four (or that
it does not write it), the events it appends and the rest of the state are the same whatever the four hold. -/
def Obligations.ObservationRegistersAreReadByNoStep : Prop :=
  ∀ s t : State, step s = .next t → resetAsserted s = false →
    ∃ (ill : Option Bool) (bad : Option CmdWord) (rsp : Option RspWord) (ev : List Event),
      ∀ (b : Bool) (c : CmdWord) (r : RspWord) (tr : List Event),
        step { s with ill := b, badcmd := c, rsp := r, trace := tr } = .next
          { t with ill := ill.getD b, badcmd := bad.getD c, rsp := rsp.getD r, trace := tr ++ ev }

/-- 10_state.md R27, R32: a step only appends to `TRACE`, at most one pin event, and it uses a `DIN` level exactly where it
appends an `S` event (the inputs are assumption 1's). -/
def Obligations.OnePinEventAStep : Prop :=
  ∀ s t : State, step s = .next t → resetAsserted s = false →
    ∃ ev, t.trace = s.trace ++ ev ∧ (ev.filter isPinEvent).length ≤ 1 ∧
      (samplesOf ev = [] ↔ t.dinIn = s.dinIn ∧ t.dinCount = s.dinCount)

/-- 10_state.md R16: `SCKL` is the level of the last `W` event a step appends, and holds its value where there is none. -/
def Obligations.ClockLevelFollowsTheWrites : Prop :=
  (∀ s t : State, step s = .next t → resetAsserted s = false →
    ∃ ev, t.trace = s.trace ++ ev ∧ t.sckl = levelAfter s.sckl ev) ∧ State.reset.sckl = 0

/-- 10_state.md R24, 20_memory.md R44: while busy the engine neither takes nor loses an offered word, and what is offered
changes nothing else. -/
def Obligations.BusyEngineHoldsTheOffers : Prop :=
  ∀ s : State, s.phase ≠ .idle →
    ∃ t, step s = .next t ∧ t.offers = s.offers ∧
      ∀ os : List CmdWord, step { s with offers := os } = .next { t with offers := os }

/-- 10_state.md R32: only the steps that sample use `DIN`: with any other levels the others answer the same. -/
def Obligations.OnlySamplingStepsReadDin : Prop :=
  ∀ (s t : State) (ds : List Level) (n : Nat), step s = .next t → resetAsserted s = false →
    s.phase ≠ .wait → s.phase ≠ .dsamp →
    (s.phase = .idle → ∀ w os, s.offers = w :: os → decode w ≠ .ok .ready) →
      t.dinIn = s.dinIn ∧ t.dinCount = s.dinCount ∧
        step { s with dinIn := ds, dinCount := n } = .next { t with dinIn := ds, dinCount := n }

/-- 10_state.md R21: every field of `STATUS`, the reserved bits, and a read of it without side effect. -/
def Obligations.StatusRegisterFields : Prop :=
  ∀ s : State,
    s.status.getLsbD 0 = decide (s.phase ≠ .idle) ∧ s.status.getLsbD 1 = s.ill ∧
    s.status.getLsbD 2 = s.sckl.getLsbD 0 ∧ s.status.getLsbD 3 = false ∧
    s.status.extractLsb' 4 2 = s.gainp ∧ s.status.getLsbD 6 = false ∧ s.status.getLsbD 7 = false ∧
    hostReadStatus s = (s.status, s)

/-- 10_state.md R17, R18, R26; 40_line_control.md R58 to R60, 41_read.md R63, 42_gain_select.md R77: every command answers
a next state in its acceptance step, and the frame of each: nothing changes but what its rule names. -/
def Obligations.CommandFrames : Prop :=
  ∀ (i : Instr) (s : State), ∃ t, exec i s = .next t ∧
    t.ill = s.ill ∧ t.badcmd = s.badcmd ∧ t.shift = s.shift ∧ t.bitcnt = s.bitcnt ∧ t.pulsecnt = s.pulsecnt ∧
    t.sckDir = s.sckDir ∧ t.dinDir = s.dinDir ∧ t.cfg = s.cfg ∧ t.offers = s.offers ∧ t.resets = s.resets ∧
    ((∀ code, i = .setgain code → gainPulsesOf code = none) → t.gainp = s.gainp) ∧
    (i = .pdown ∨ i = .pup ∨ i = .ready → t.cur = s.cur) ∧
    (i = .ready ∨ i = .read → t.sckl = s.sckl) ∧
    (i ≠ .ready → t.dinIn = s.dinIn ∧ t.dinCount = s.dinCount) ∧
    (i = .read → t.trace = s.trace) ∧
    (t.phase ≠ .idle → t.rsp = s.rsp)

/-- 41_read.md R64 to R70, 10_state.md R17, R19: the frame of the micro-steps: what each phase leaves as it was. -/
def Obligations.MicroStepFrames : Prop :=
  ∀ s : State, s.phase ≠ .idle → resetAsserted s = false → ∃ t, step s = .next t ∧
    t.gainp = s.gainp ∧ t.ill = s.ill ∧ t.badcmd = s.badcmd ∧ t.cur = s.cur ∧ t.sckDir = s.sckDir ∧
    t.dinDir = s.dinDir ∧ t.cfg = s.cfg ∧ t.offers = s.offers ∧
    (s.phase = .wait ∨ s.phase = .dsamp → t.sckl = s.sckl) ∧
    (s.phase ≠ .wait → s.phase ≠ .dsamp → t.shift = s.shift ∧ t.bitcnt = s.bitcnt ∧ t.dinIn = s.dinIn) ∧
    (s.phase ≠ .dfall → s.phase ≠ .gfall → t.pulsecnt = s.pulsecnt) ∧
    (s.phase ≠ .gfall → s.phase ≠ .pdhi → t.rsp = s.rsp)

/-! ### The attached converter and the platform -/

/-- 60_exceptions.md R91 to R93, 41_read.md R74 (the peer's contract as modelled, assumption 7): a `READ` that finds a
latched result, one that waits `k` polls for the conversion behind earlier trailing pulses, and the first one after a
power-up, which waits `k` polls for the conversion that runs, answer that result; the mode it was converted in is the one
programmed before, and the read programs the mode of `GAINP` for the next conversion. -/
def Obligations.ReadThroughAContractPeer : Prop :=
  ∀ (b : Bench) (os : List CmdWord) (v : Reading),
    b.engine.phase = .idle → b.engine.gainp ≠ 0 → b.engine.offers = 0x0004 :: os → b.engine.sckl = 0 →
    b.peer.sck = 0 → b.engine.resets = [] →
    (b.peer.phase = .ready v → b.script = [] →
      ∃ b', benchRun (74 + 2 * b.engine.gainp.toNat) b = .next b' ∧ b'.engine.phase = .idle ∧
        b'.engine.rsp = sext32 v ∧ b'.peer.convMode = b.peer.convMode ∧
        some b'.peer.nextMode = modeOfPulses b.engine.gainp.toNat ∧
        b'.peer.phase = .trailing b.engine.gainp.toNat) ∧
    (∀ (k g : Nat), b.peer.phase = .trailing g → b.script = List.replicate (k + 1) .quiet ++ [.finish v] →
      ∃ b', benchRun (74 + k + 2 * b.engine.gainp.toNat) b = .next b' ∧ b'.engine.phase = .idle ∧
        b'.engine.rsp = sext32 v ∧ b'.peer.convMode = b.peer.nextMode ∧
        some b'.peer.nextMode = modeOfPulses b.engine.gainp.toNat ∧
        b'.peer.phase = .trailing b.engine.gainp.toNat) ∧
    (∀ k : Nat, b.peer.phase = .converting → b.script = List.replicate (k + 1) .quiet ++ [.finish v] →
      ∃ b', benchRun (74 + k + 2 * b.engine.gainp.toNat) b = .next b' ∧ b'.engine.phase = .idle ∧
        b'.engine.rsp = sext32 v ∧ b'.peer.convMode = b.peer.convMode ∧
        some b'.peer.nextMode = modeOfPulses b.engine.gainp.toNat ∧
        b'.peer.phase = .trailing b.engine.gainp.toNat)

/-- 93_implementation_defined.md I14, 60_exceptions.md R93 (assumption 7): a complete read programs a peer whose state the
source leaves open: from the first data pulse on, whatever the free levels are, the read ends with the mode of `GAINP`
programmed for the next conversion, unless the peer may have counted a stray pulse; then the peer only counts afresh, and
the next complete read programs it. -/
def Obligations.CompleteReadProgramsALostPeer : Prop :=
  ∀ (b : Bench) (stray : Bool) (n : Nat),
    b.engine.phase = .drise → b.engine.bitcnt = 0 → b.engine.gainp ≠ 0 → b.engine.sckl = 0 → b.peer.sck = 0 →
    b.engine.resets = [] → b.script = [] → b.peer.phase = .unspecified stray n →
      ∃ b', benchRun (72 + 2 * b.engine.gainp.toNat) b = .next b' ∧ b'.engine.phase = .idle ∧ b'.peer.sck = 0 ∧
        (stray = false → b'.peer.phase = .trailing b.engine.gainp.toNat ∧
          some b'.peer.nextMode = modeOfPulses b.engine.gainp.toNat) ∧
        (stray = true → b'.peer.phase = .unspecified false 0)

/-- 42_gain_select.md R79, R80; 60_exceptions.md R93, R94 (assumption 7): after `SETGAIN` with a recognised code, the result
the peer latches next was converted in that code's mode, whether the peer had a result latched, was converting (`k` polls
from its end), or slept and is woken by the forced power-up write. -/
def Obligations.SetgainSettlesThePeersMode : Prop :=
  ∀ (b : Bench) (os : List CmdWord) (w : CmdWord) (code : BitVec 32) (g : BitVec 2) (m : Mode) (v v' : Reading) (k : Nat),
    b.engine.phase = .idle → b.engine.offers = w :: os → decode w = .ok (.setgain code) →
    gainPulsesOf code = some g → modeOfPulses g.toNat = some m → b.engine.sckl = b.peer.sck → b.engine.resets = [] →
    (b.peer.phase = .ready v ∧ b.peer.sck = 0 ∧ k = 0 ∧ b.script = []) ∨
      ((b.peer.phase = .converting ∨ (∃ g0, b.peer.phase = .trailing g0)) ∧ b.peer.sck = 0 ∧
        b.script = List.replicate (k + 1) .quiet ++ [.finish v]) ∨
      (b.peer.phase = .asleep ∧ b.peer.sck = 1 ∧ b.script = List.replicate (k + 1) .quiet ++ [.finish v]) →
      ∃ b', benchRun (74 + k + 2 * g.toNat) b = .next b' ∧ b'.engine.phase = .idle ∧ b'.engine.rsp = 0x00000000 ∧
        b'.engine.gainp = g ∧ (peerInput b'.engine (.finish v') b'.peer).phase = .ready v' ∧
        (peerInput b'.engine (.finish v') b'.peer).convMode = m

/-- 60_exceptions.md R94, R100; 70_reset_and_hazards.md R111 (assumption 7): `PDOWN` in either form, a hold of at least
`T_PD_MIN`, `PUP`: the peer converts in Channel A / 128×, and of the engine's state nothing changes but what the two
commands write: `SCKL`, `RSP` and `TRACE` (and the inputs used up). -/
def Obligations.PowerCycleResetsThePeerOnly : Prop :=
  ∀ (b : Bench) (os : List CmdWord),
    b.engine.phase = .idle → b.engine.offers = 0x0001 :: 0x0002 :: os → b.engine.sckl = b.peer.sck →
    b.engine.resets = [] →
      ∀ n : Nat, (b.engine.cfg.pdownForm = .highOnly ∧ n = 1) ∨ (b.engine.cfg.pdownForm = .lowThenHigh ∧ n = 2) →
        b.script = List.replicate n .quiet ++ [.held] →
          ∃ b', benchRun (n + 1) b = .next b' ∧ b'.peer.phase = .converting ∧ b'.peer.convMode = .a128 ∧
            b'.peer.nextMode = .a128 ∧ b'.peer.sck = 0 ∧
            b'.engine = { b.engine with
              sckl := 0
              rsp := 0x00000000
              offers := os
              dinIn := []
              trace := b.engine.trace ++
                (if n = 1 then [.c 0x0001, .w 1, .r 0x00000000, .c 0x0002, .w 0, .r 0x00000000]
                else [.c 0x0001, .w 0, .w 1, .r 0x00000000, .c 0x0002, .w 0, .r 0x00000000]) }

/-- 60_exceptions.md R94, R100; 70_reset_and_hazards.md R117 (assumption 7): sleep ends by a return to low and by nothing
else. Whatever the outside does to a sleeping peer and whatever step the engine makes (`PUP`, the forced power-up write of
`SETGAIN`, the low edge of a pulse, a reset): where the line is low after it the peer converts in Channel A / 128×, and where
it is still high the peer sleeps on. -/
def Obligations.OnlyALowLevelEndsSleep : Prop :=
  ∀ b b' : Bench, b.peer.phase = .asleep → b.peer.sck = 1 → benchStep b = .next b' →
    (b'.engine.sckl = 0 → b'.peer = { phase := .converting, sck := 0, convMode := .a128, nextMode := .a128 }) ∧
    (b'.engine.sckl = 1 → b'.peer = b.peer)

/-- 70_reset_and_hazards.md R117 (assumption 7): a reset of the engine while the peer sleeps, or where the line has by now
been high long enough, is the peer's power-up, whatever the script says of a sleeping peer: the peer converts in Channel A / 128×, the mode of the reset value of `GAINP`. -/
def Obligations.ResetPowersUpASleepingPeer : Prop :=
  ∀ (b : Bench) (rest : List Bool), b.engine.resets = true :: rest → b.peer.sck = 1 →
    (b.script.head? = some .held ∨ b.peer.phase = .asleep) →
      ∃ b', benchStep b = .next b' ∧ b'.engine.phase = .idle ∧ b'.engine.sckl = 0 ∧ b'.engine.trace = [] ∧
        b'.peer.phase = .converting ∧ b'.peer.sck = 0 ∧
        some b'.peer.convMode = modeOfPulses b'.engine.gainp.toNat ∧ b'.peer.nextMode = b'.peer.convMode

/-- 93_implementation_defined.md I14, 92_eei_decisions.md D8 (assumption 7): a reset of the engine in mid-read, in the data
pulses or in the gain pulses, leaves the state of a peer that does not sleep open, and what it drives on `DIN` free. -/
def Obligations.ResetInMidReadLeavesThePeerOpen : Prop :=
  ∀ (b : Bench) (rest : List Bool), b.engine.resets = true :: rest → b.script = [] → b.peer.phase ≠ .asleep →
    (b.engine.phase = .drise ∧ b.engine.bitcnt ≠ 0) ∨ b.engine.phase = .dsamp ∨ b.engine.phase = .dfall ∨
      b.engine.phase = .grise ∨ b.engine.phase = .gfall →
      ∃ b' stray, benchStep b = .next b' ∧ b'.engine.phase = .idle ∧ b'.engine.sckl = 0 ∧ b'.peer.sck = 0 ∧
        b'.peer.phase = .unspecified stray 0 ∧ peerDin b'.peer = none

/-- 60_exceptions.md R98: instances share no state: whatever the others are and do, each instance that the platform's step
moves answers its own step, and the others stay; and instances on clock lines of their own never stop the platform. The
platform is the model's own (assumption 8). -/
def Obligations.InstancesShareNoState : Prop :=
  ∀ (mask : List Bool) (es : List State),
    (∀ es', platformStep mask es = .next es' →
      es'.length = es.length ∧
      ∀ (j : Nat) (s s' : State), es[j]? = some s → es'[j]? = some s' →
        (mask.getD j false = false → s' = s) ∧
        (∀ u, mask.getD j false = true → step s = .next u → s' = u)) ∧
    ((es.map fun s => s.cfg.clockPin).Nodup → ∃ es', platformStep mask es = .next es')

/-- 60_exceptions.md R99: two instances that drive one shared clock line in the same step stop the platform, whatever the
command; a reset drives the line too (assumption 8). -/
def Obligations.SharedClockWritesStopThePlatform : Prop :=
  ∀ (mask : List Bool) (es : List State) (i j : Nat) (s t : State),
    i ≠ j → es[i]? = some s → es[j]? = some t → mask[i]? = some true → mask[j]? = some true →
    s.cfg.clockPin = t.cfg.clockPin →
    (resetAsserted s = true ∨ ∃ u ev, step s = .next u ∧ u.trace = s.trace ++ ev ∧ writesOf ev ≠ []) →
    (resetAsserted t = true ∨ ∃ u ev, step t = .next u ∧ u.trace = t.trace ++ ev ∧ writesOf ev ≠ []) →
      platformStep mask es = .fault .sharedClockWrite
end

