-- ==== Sys2Proof/Laws/Decode.lean ====
section
/-! SUPPORT. The fields of a command word as numbers (spec/30_encoding.md R46), and the word a command is packed into. -/

namespace Sys2Proof

theorem opField_toNat (w : CmdWord) : (opField w).toNat = w.toNat % 16 := by simp [opField]

theorem rsvField_toNat (w : CmdWord) : (rsvField w).toNat = w.toNat / 16 % 16 := by
  simp [rsvField, Nat.shiftRight_eq_div_pow]

theorem argField_toNat (w : CmdWord) : (argField w).toNat = w.toNat / 256 := by
  have := w.isLt
  simp only [argField, BitVec.extractLsb'_toNat, Nat.shiftRight_eq_div_pow]
  omega

theorem packWord_toNat (arg : BitVec 8) (op : BitVec 4) : (packWord arg op).toNat = 256 * arg.toNat + op.toNat := by
  have ho := op.isLt
  simp only [packWord, BitVec.toNat_append]
  have h : (0#4).toNat <<< 4 ||| op.toNat = op.toNat := by simp
  rw [h, ← Nat.shiftLeft_add_eq_or_of_lt (by omega), Nat.shiftLeft_eq]
  omega

/-- A word is its three fields. -/
theorem word_eq_of_fields {w : CmdWord} {arg : BitVec 8} {op : BitVec 4} (hr : rsvField w = 0) (ha : argField w = arg)
    (ho : opField w = op) : packWord arg op = w := by
  apply BitVec.eq_of_toNat_eq
  have h1 := rsvField_toNat w
  rw [hr] at h1
  rw [packWord_toNat, ← ha, ← ho, argField_toNat, opField_toNat]
  simp at h1
  omega

theorem rsvField_packWord (arg : BitVec 8) (op : BitVec 4) : rsvField (packWord arg op) = 0 := by
  apply BitVec.eq_of_toNat_eq
  have := op.isLt
  rw [rsvField_toNat, packWord_toNat]
  simp
  omega

theorem opField_packWord (arg : BitVec 8) (op : BitVec 4) : opField (packWord arg op) = op := by
  apply BitVec.eq_of_toNat_eq
  have := op.isLt
  rw [opField_toNat, packWord_toNat]
  omega

theorem argField_packWord (arg : BitVec 8) (op : BitVec 4) : argField (packWord arg op) = arg := by
  apply BitVec.eq_of_toNat_eq
  have := op.isLt
  rw [argField_toNat, packWord_toNat]
  omega

end Sys2Proof
end

