-- ==== Sys2Proof/Laws/State.lean ====
section
/-! SUPPORT. What every named operation does to every field of State: one lemma a field and an operation, so that no later
proof unfolds a record update. -/

namespace Sys2Proof.Machine

variable (s : State)

/-! ### `State.append` -/

@[simp] theorem append_sckl (e : Event) : (State.append e s).sckl = s.sckl := rfl
@[simp] theorem append_gainp (e : Event) : (State.append e s).gainp = s.gainp := rfl
@[simp] theorem append_ill (e : Event) : (State.append e s).ill = s.ill := rfl
@[simp] theorem append_badcmd (e : Event) : (State.append e s).badcmd = s.badcmd := rfl
@[simp] theorem append_rsp (e : Event) : (State.append e s).rsp = s.rsp := rfl
@[simp] theorem append_phase (e : Event) : (State.append e s).phase = s.phase := rfl
@[simp] theorem append_cur (e : Event) : (State.append e s).cur = s.cur := rfl
@[simp] theorem append_shift (e : Event) : (State.append e s).shift = s.shift := rfl
@[simp] theorem append_bitcnt (e : Event) : (State.append e s).bitcnt = s.bitcnt := rfl
@[simp] theorem append_pulsecnt (e : Event) : (State.append e s).pulsecnt = s.pulsecnt := rfl
@[simp] theorem append_trace (e : Event) : (State.append e s).trace = s.trace ++ [e] := rfl
@[simp] theorem append_sckDir (e : Event) : (State.append e s).sckDir = s.sckDir := rfl
@[simp] theorem append_dinDir (e : Event) : (State.append e s).dinDir = s.dinDir := rfl
@[simp] theorem append_cfg (e : Event) : (State.append e s).cfg = s.cfg := rfl
@[simp] theorem append_offers (e : Event) : (State.append e s).offers = s.offers := rfl
@[simp] theorem append_resets (e : Event) : (State.append e s).resets = s.resets := rfl
@[simp] theorem append_dinIn (e : Event) : (State.append e s).dinIn = s.dinIn := rfl
@[simp] theorem append_dinCount (e : Event) : (State.append e s).dinCount = s.dinCount := rfl

/-! ### `pinWrite` -/

@[simp] theorem pinWrite_sckl (v : Level) : (pinWrite v s).sckl = v := rfl
@[simp] theorem pinWrite_gainp (v : Level) : (pinWrite v s).gainp = s.gainp := rfl
@[simp] theorem pinWrite_ill (v : Level) : (pinWrite v s).ill = s.ill := rfl
@[simp] theorem pinWrite_badcmd (v : Level) : (pinWrite v s).badcmd = s.badcmd := rfl
@[simp] theorem pinWrite_rsp (v : Level) : (pinWrite v s).rsp = s.rsp := rfl
@[simp] theorem pinWrite_phase (v : Level) : (pinWrite v s).phase = s.phase := rfl
@[simp] theorem pinWrite_cur (v : Level) : (pinWrite v s).cur = s.cur := rfl
@[simp] theorem pinWrite_shift (v : Level) : (pinWrite v s).shift = s.shift := rfl
@[simp] theorem pinWrite_bitcnt (v : Level) : (pinWrite v s).bitcnt = s.bitcnt := rfl
@[simp] theorem pinWrite_pulsecnt (v : Level) : (pinWrite v s).pulsecnt = s.pulsecnt := rfl
@[simp] theorem pinWrite_trace (v : Level) : (pinWrite v s).trace = s.trace ++ [.w v] := rfl
@[simp] theorem pinWrite_sckDir (v : Level) : (pinWrite v s).sckDir = s.sckDir := rfl
@[simp] theorem pinWrite_dinDir (v : Level) : (pinWrite v s).dinDir = s.dinDir := rfl
@[simp] theorem pinWrite_cfg (v : Level) : (pinWrite v s).cfg = s.cfg := rfl
@[simp] theorem pinWrite_offers (v : Level) : (pinWrite v s).offers = s.offers := rfl
@[simp] theorem pinWrite_resets (v : Level) : (pinWrite v s).resets = s.resets := rfl
@[simp] theorem pinWrite_dinIn (v : Level) : (pinWrite v s).dinIn = s.dinIn := rfl
@[simp] theorem pinWrite_dinCount (v : Level) : (pinWrite v s).dinCount = s.dinCount := rfl

/-! ### `dinTaken` -/

@[simp] theorem dinTaken_sckl : (dinTaken s).sckl = s.sckl := rfl
@[simp] theorem dinTaken_gainp : (dinTaken s).gainp = s.gainp := rfl
@[simp] theorem dinTaken_ill : (dinTaken s).ill = s.ill := rfl
@[simp] theorem dinTaken_badcmd : (dinTaken s).badcmd = s.badcmd := rfl
@[simp] theorem dinTaken_rsp : (dinTaken s).rsp = s.rsp := rfl
@[simp] theorem dinTaken_phase : (dinTaken s).phase = s.phase := rfl
@[simp] theorem dinTaken_cur : (dinTaken s).cur = s.cur := rfl
@[simp] theorem dinTaken_shift : (dinTaken s).shift = s.shift := rfl
@[simp] theorem dinTaken_bitcnt : (dinTaken s).bitcnt = s.bitcnt := rfl
@[simp] theorem dinTaken_pulsecnt : (dinTaken s).pulsecnt = s.pulsecnt := rfl
@[simp] theorem dinTaken_trace : (dinTaken s).trace = s.trace := rfl
@[simp] theorem dinTaken_sckDir : (dinTaken s).sckDir = s.sckDir := rfl
@[simp] theorem dinTaken_dinDir : (dinTaken s).dinDir = s.dinDir := rfl
@[simp] theorem dinTaken_cfg : (dinTaken s).cfg = s.cfg := rfl
@[simp] theorem dinTaken_offers : (dinTaken s).offers = s.offers := rfl
@[simp] theorem dinTaken_resets : (dinTaken s).resets = s.resets := rfl
@[simp] theorem dinTaken_dinIn : (dinTaken s).dinIn = s.dinIn.tail := rfl

/-! ### `pinSample` -/

@[simp] theorem pinSample_sckl : (pinSample s).sckl = s.sckl := rfl
@[simp] theorem pinSample_gainp : (pinSample s).gainp = s.gainp := rfl
@[simp] theorem pinSample_ill : (pinSample s).ill = s.ill := rfl
@[simp] theorem pinSample_badcmd : (pinSample s).badcmd = s.badcmd := rfl
@[simp] theorem pinSample_rsp : (pinSample s).rsp = s.rsp := rfl
@[simp] theorem pinSample_phase : (pinSample s).phase = s.phase := rfl
@[simp] theorem pinSample_cur : (pinSample s).cur = s.cur := rfl
@[simp] theorem pinSample_shift : (pinSample s).shift = s.shift := rfl
@[simp] theorem pinSample_bitcnt : (pinSample s).bitcnt = s.bitcnt := rfl
@[simp] theorem pinSample_pulsecnt : (pinSample s).pulsecnt = s.pulsecnt := rfl
@[simp] theorem pinSample_trace : (pinSample s).trace = s.trace ++ [.s (dinNow s)] := rfl
@[simp] theorem pinSample_sckDir : (pinSample s).sckDir = s.sckDir := rfl
@[simp] theorem pinSample_dinDir : (pinSample s).dinDir = s.dinDir := rfl
@[simp] theorem pinSample_cfg : (pinSample s).cfg = s.cfg := rfl
@[simp] theorem pinSample_offers : (pinSample s).offers = s.offers := rfl
@[simp] theorem pinSample_resets : (pinSample s).resets = s.resets := rfl
@[simp] theorem pinSample_dinIn : (pinSample s).dinIn = s.dinIn.tail := rfl
@[simp] theorem pinSample_dinCount : (pinSample s).dinCount = (dinTaken s).dinCount := rfl

/-! ### `respond` -/

@[simp] theorem respond_sckl (v : RspWord) : (respond v s).sckl = s.sckl := rfl
@[simp] theorem respond_gainp (v : RspWord) : (respond v s).gainp = s.gainp := rfl
@[simp] theorem respond_ill (v : RspWord) : (respond v s).ill = s.ill := rfl
@[simp] theorem respond_badcmd (v : RspWord) : (respond v s).badcmd = s.badcmd := rfl
@[simp] theorem respond_rsp (v : RspWord) : (respond v s).rsp = v := rfl
@[simp] theorem respond_phase (v : RspWord) : (respond v s).phase = .idle := rfl
@[simp] theorem respond_cur (v : RspWord) : (respond v s).cur = s.cur := rfl
@[simp] theorem respond_shift (v : RspWord) : (respond v s).shift = s.shift := rfl
@[simp] theorem respond_bitcnt (v : RspWord) : (respond v s).bitcnt = s.bitcnt := rfl
@[simp] theorem respond_pulsecnt (v : RspWord) : (respond v s).pulsecnt = s.pulsecnt := rfl
@[simp] theorem respond_trace (v : RspWord) : (respond v s).trace = s.trace ++ [.r v] := rfl
@[simp] theorem respond_sckDir (v : RspWord) : (respond v s).sckDir = s.sckDir := rfl
@[simp] theorem respond_dinDir (v : RspWord) : (respond v s).dinDir = s.dinDir := rfl
@[simp] theorem respond_cfg (v : RspWord) : (respond v s).cfg = s.cfg := rfl
@[simp] theorem respond_offers (v : RspWord) : (respond v s).offers = s.offers := rfl
@[simp] theorem respond_resets (v : RspWord) : (respond v s).resets = s.resets := rfl
@[simp] theorem respond_dinIn (v : RspWord) : (respond v s).dinIn = s.dinIn := rfl
@[simp] theorem respond_dinCount (v : RspWord) : (respond v s).dinCount = s.dinCount := rfl

/-! ### `raiseIllegalCommand` -/

@[simp] theorem raiseIllegalCommand_sckl (word : CmdWord) : (raiseIllegalCommand word s).sckl = s.sckl := rfl
@[simp] theorem raiseIllegalCommand_gainp (word : CmdWord) : (raiseIllegalCommand word s).gainp = s.gainp := rfl
@[simp] theorem raiseIllegalCommand_ill (word : CmdWord) : (raiseIllegalCommand word s).ill = true := rfl
@[simp] theorem raiseIllegalCommand_badcmd (word : CmdWord) : (raiseIllegalCommand word s).badcmd = word := rfl
@[simp] theorem raiseIllegalCommand_rsp (word : CmdWord) : (raiseIllegalCommand word s).rsp = 0 := rfl
@[simp] theorem raiseIllegalCommand_phase (word : CmdWord) : (raiseIllegalCommand word s).phase = .idle := rfl
@[simp] theorem raiseIllegalCommand_cur (word : CmdWord) : (raiseIllegalCommand word s).cur = s.cur := rfl
@[simp] theorem raiseIllegalCommand_shift (word : CmdWord) : (raiseIllegalCommand word s).shift = s.shift := rfl
@[simp] theorem raiseIllegalCommand_bitcnt (word : CmdWord) : (raiseIllegalCommand word s).bitcnt = s.bitcnt := rfl
@[simp] theorem raiseIllegalCommand_pulsecnt (word : CmdWord) : (raiseIllegalCommand word s).pulsecnt = s.pulsecnt := rfl
@[simp] theorem raiseIllegalCommand_trace (word : CmdWord) : (raiseIllegalCommand word s).trace = s.trace ++ [.r 0] := rfl
@[simp] theorem raiseIllegalCommand_sckDir (word : CmdWord) : (raiseIllegalCommand word s).sckDir = s.sckDir := rfl
@[simp] theorem raiseIllegalCommand_dinDir (word : CmdWord) : (raiseIllegalCommand word s).dinDir = s.dinDir := rfl
@[simp] theorem raiseIllegalCommand_cfg (word : CmdWord) : (raiseIllegalCommand word s).cfg = s.cfg := rfl
@[simp] theorem raiseIllegalCommand_offers (word : CmdWord) : (raiseIllegalCommand word s).offers = s.offers := rfl
@[simp] theorem raiseIllegalCommand_resets (word : CmdWord) : (raiseIllegalCommand word s).resets = s.resets := rfl
@[simp] theorem raiseIllegalCommand_dinIn (word : CmdWord) : (raiseIllegalCommand word s).dinIn = s.dinIn := rfl
@[simp] theorem raiseIllegalCommand_dinCount (word : CmdWord) : (raiseIllegalCommand word s).dinCount = s.dinCount := rfl

/-! ### `engineReset` -/

@[simp] theorem engineReset_sckl : (engineReset s).sckl = 0 := rfl
@[simp] theorem engineReset_gainp : (engineReset s).gainp = 1 := rfl
@[simp] theorem engineReset_ill : (engineReset s).ill = false := rfl
@[simp] theorem engineReset_badcmd : (engineReset s).badcmd = 0 := rfl
@[simp] theorem engineReset_rsp : (engineReset s).rsp = 0 := rfl
@[simp] theorem engineReset_phase : (engineReset s).phase = .idle := rfl
@[simp] theorem engineReset_cur : (engineReset s).cur = .read := rfl
@[simp] theorem engineReset_shift : (engineReset s).shift = 0 := rfl
@[simp] theorem engineReset_bitcnt : (engineReset s).bitcnt = 0 := rfl
@[simp] theorem engineReset_pulsecnt : (engineReset s).pulsecnt = 0 := rfl
@[simp] theorem engineReset_trace : (engineReset s).trace = [] := rfl
@[simp] theorem engineReset_sckDir : (engineReset s).sckDir = .output := rfl
@[simp] theorem engineReset_dinDir : (engineReset s).dinDir = .input := rfl
@[simp] theorem engineReset_cfg : (engineReset s).cfg = s.cfg := rfl
@[simp] theorem engineReset_offers : (engineReset s).offers = s.offers := rfl
@[simp] theorem engineReset_resets : (engineReset s).resets = s.resets := rfl
@[simp] theorem engineReset_dinIn : (engineReset s).dinIn = s.dinIn := rfl
@[simp] theorem engineReset_dinCount : (engineReset s).dinCount = s.dinCount := rfl

/-! ### `resetTaken` -/

@[simp] theorem resetTaken_sckl : (resetTaken s).sckl = s.sckl := rfl
@[simp] theorem resetTaken_gainp : (resetTaken s).gainp = s.gainp := rfl
@[simp] theorem resetTaken_ill : (resetTaken s).ill = s.ill := rfl
@[simp] theorem resetTaken_badcmd : (resetTaken s).badcmd = s.badcmd := rfl
@[simp] theorem resetTaken_rsp : (resetTaken s).rsp = s.rsp := rfl
@[simp] theorem resetTaken_phase : (resetTaken s).phase = s.phase := rfl
@[simp] theorem resetTaken_cur : (resetTaken s).cur = s.cur := rfl
@[simp] theorem resetTaken_shift : (resetTaken s).shift = s.shift := rfl
@[simp] theorem resetTaken_bitcnt : (resetTaken s).bitcnt = s.bitcnt := rfl
@[simp] theorem resetTaken_pulsecnt : (resetTaken s).pulsecnt = s.pulsecnt := rfl
@[simp] theorem resetTaken_trace : (resetTaken s).trace = s.trace := rfl
@[simp] theorem resetTaken_sckDir : (resetTaken s).sckDir = s.sckDir := rfl
@[simp] theorem resetTaken_dinDir : (resetTaken s).dinDir = s.dinDir := rfl
@[simp] theorem resetTaken_cfg : (resetTaken s).cfg = s.cfg := rfl
@[simp] theorem resetTaken_offers : (resetTaken s).offers = s.offers := rfl
@[simp] theorem resetTaken_resets : (resetTaken s).resets = s.resets.tail := rfl
@[simp] theorem resetTaken_dinIn : (resetTaken s).dinIn = s.dinIn := rfl
@[simp] theorem resetTaken_dinCount : (resetTaken s).dinCount = s.dinCount := rfl

/-! ### `takeOffer` -/

@[simp] theorem takeOffer_sckl (word : CmdWord) (rest : List CmdWord) : (takeOffer word rest s).sckl = s.sckl := rfl
@[simp] theorem takeOffer_gainp (word : CmdWord) (rest : List CmdWord) : (takeOffer word rest s).gainp = s.gainp := rfl
@[simp] theorem takeOffer_ill (word : CmdWord) (rest : List CmdWord) : (takeOffer word rest s).ill = s.ill := rfl
@[simp] theorem takeOffer_badcmd (word : CmdWord) (rest : List CmdWord) : (takeOffer word rest s).badcmd = s.badcmd := rfl
@[simp] theorem takeOffer_rsp (word : CmdWord) (rest : List CmdWord) : (takeOffer word rest s).rsp = s.rsp := rfl
@[simp] theorem takeOffer_phase (word : CmdWord) (rest : List CmdWord) : (takeOffer word rest s).phase = s.phase := rfl
@[simp] theorem takeOffer_cur (word : CmdWord) (rest : List CmdWord) : (takeOffer word rest s).cur = s.cur := rfl
@[simp] theorem takeOffer_shift (word : CmdWord) (rest : List CmdWord) : (takeOffer word rest s).shift = s.shift := rfl
@[simp] theorem takeOffer_bitcnt (word : CmdWord) (rest : List CmdWord) : (takeOffer word rest s).bitcnt = s.bitcnt := rfl
@[simp] theorem takeOffer_pulsecnt (word : CmdWord) (rest : List CmdWord) : (takeOffer word rest s).pulsecnt = s.pulsecnt := rfl
@[simp] theorem takeOffer_trace (word : CmdWord) (rest : List CmdWord) : (takeOffer word rest s).trace = s.trace ++ [.c word] := rfl
@[simp] theorem takeOffer_sckDir (word : CmdWord) (rest : List CmdWord) : (takeOffer word rest s).sckDir = s.sckDir := rfl
@[simp] theorem takeOffer_dinDir (word : CmdWord) (rest : List CmdWord) : (takeOffer word rest s).dinDir = s.dinDir := rfl
@[simp] theorem takeOffer_cfg (word : CmdWord) (rest : List CmdWord) : (takeOffer word rest s).cfg = s.cfg := rfl
@[simp] theorem takeOffer_offers (word : CmdWord) (rest : List CmdWord) : (takeOffer word rest s).offers = rest := rfl
@[simp] theorem takeOffer_resets (word : CmdWord) (rest : List CmdWord) : (takeOffer word rest s).resets = s.resets := rfl
@[simp] theorem takeOffer_dinIn (word : CmdWord) (rest : List CmdWord) : (takeOffer word rest s).dinIn = s.dinIn := rfl
@[simp] theorem takeOffer_dinCount (word : CmdWord) (rest : List CmdWord) : (takeOffer word rest s).dinCount = s.dinCount := rfl

/-! ### `offerNext` -/

@[simp] theorem offerNext_sckl (word : CmdWord) : (offerNext word s).sckl = s.sckl := rfl
@[simp] theorem offerNext_gainp (word : CmdWord) : (offerNext word s).gainp = s.gainp := rfl
@[simp] theorem offerNext_ill (word : CmdWord) : (offerNext word s).ill = s.ill := rfl
@[simp] theorem offerNext_badcmd (word : CmdWord) : (offerNext word s).badcmd = s.badcmd := rfl
@[simp] theorem offerNext_rsp (word : CmdWord) : (offerNext word s).rsp = s.rsp := rfl
@[simp] theorem offerNext_phase (word : CmdWord) : (offerNext word s).phase = .idle := rfl
@[simp] theorem offerNext_cur (word : CmdWord) : (offerNext word s).cur = s.cur := rfl
@[simp] theorem offerNext_shift (word : CmdWord) : (offerNext word s).shift = s.shift := rfl
@[simp] theorem offerNext_bitcnt (word : CmdWord) : (offerNext word s).bitcnt = s.bitcnt := rfl
@[simp] theorem offerNext_pulsecnt (word : CmdWord) : (offerNext word s).pulsecnt = s.pulsecnt := rfl
@[simp] theorem offerNext_trace (word : CmdWord) : (offerNext word s).trace = s.trace := rfl
@[simp] theorem offerNext_sckDir (word : CmdWord) : (offerNext word s).sckDir = s.sckDir := rfl
@[simp] theorem offerNext_dinDir (word : CmdWord) : (offerNext word s).dinDir = s.dinDir := rfl
@[simp] theorem offerNext_cfg (word : CmdWord) : (offerNext word s).cfg = s.cfg := rfl
@[simp] theorem offerNext_offers (word : CmdWord) : (offerNext word s).offers = word :: s.offers := rfl
@[simp] theorem offerNext_resets (word : CmdWord) : (offerNext word s).resets = s.resets.set 0 false := rfl
@[simp] theorem offerNext_dinIn (word : CmdWord) : (offerNext word s).dinIn = s.dinIn := rfl
@[simp] theorem offerNext_dinCount (word : CmdWord) : (offerNext word s).dinCount = s.dinCount := rfl

/-! ### `gainPulseDone` -/

@[simp] theorem gainPulseDone_sckl : (gainPulseDone s).sckl = 0 := rfl
@[simp] theorem gainPulseDone_gainp : (gainPulseDone s).gainp = s.gainp := rfl
@[simp] theorem gainPulseDone_ill : (gainPulseDone s).ill = s.ill := rfl
@[simp] theorem gainPulseDone_badcmd : (gainPulseDone s).badcmd = s.badcmd := rfl
@[simp] theorem gainPulseDone_rsp : (gainPulseDone s).rsp = s.rsp := rfl
@[simp] theorem gainPulseDone_phase : (gainPulseDone s).phase = s.phase := rfl
@[simp] theorem gainPulseDone_cur : (gainPulseDone s).cur = s.cur := rfl
@[simp] theorem gainPulseDone_shift : (gainPulseDone s).shift = s.shift := rfl
@[simp] theorem gainPulseDone_bitcnt : (gainPulseDone s).bitcnt = s.bitcnt := rfl
@[simp] theorem gainPulseDone_pulsecnt : (gainPulseDone s).pulsecnt = s.pulsecnt + 1 := rfl
@[simp] theorem gainPulseDone_trace : (gainPulseDone s).trace = s.trace ++ [.w 0] := rfl
@[simp] theorem gainPulseDone_sckDir : (gainPulseDone s).sckDir = s.sckDir := rfl
@[simp] theorem gainPulseDone_dinDir : (gainPulseDone s).dinDir = s.dinDir := rfl
@[simp] theorem gainPulseDone_cfg : (gainPulseDone s).cfg = s.cfg := rfl
@[simp] theorem gainPulseDone_offers : (gainPulseDone s).offers = s.offers := rfl
@[simp] theorem gainPulseDone_resets : (gainPulseDone s).resets = s.resets := rfl
@[simp] theorem gainPulseDone_dinIn : (gainPulseDone s).dinIn = s.dinIn := rfl
@[simp] theorem gainPulseDone_dinCount : (gainPulseDone s).dinCount = s.dinCount := rfl

/-! ### Inputs -/

theorem dinNow_cons {d : Level} {ds : List Level} (h : s.dinIn = d :: ds) : dinNow s = d := by simp [dinNow, h]

theorem dinNow_nil (h : s.dinIn = []) : dinNow s = Config.dinDraw s.cfg.dataPin s.dinCount := by simp [dinNow, h]

@[simp] theorem dinNow_resetTaken : dinNow (resetTaken s) = dinNow s := rfl

@[simp] theorem dinNow_takeOffer (word : CmdWord) (rest : List CmdWord) : dinNow (takeOffer word rest s) = dinNow s := rfl

@[simp] theorem dinNow_pinWrite (v : Level) : dinNow (pinWrite v s) = dinNow s := rfl

@[simp] theorem resetTaken_dinTaken_dinCount : (dinTaken (resetTaken s)).dinCount = (dinTaken s).dinCount := rfl

theorem dinTaken_dinCount_cons {d : Level} {ds : List Level} (h : s.dinIn = d :: ds) :
    (dinTaken s).dinCount = s.dinCount := by simp [dinTaken, h]

theorem dinTaken_dinCount_nil (h : s.dinIn = []) : (dinTaken s).dinCount = s.dinCount + 1 := by simp [dinTaken, h]

theorem resetTaken_nil (h : s.resets = []) : resetTaken s = s := by
  cases s; simp_all [resetTaken]

theorem resetAsserted_nil (h : s.resets = []) : resetAsserted s = false := by simp [resetAsserted, h]

end Sys2Proof.Machine
end

