-- ==== Sys2Proof/Laws/Ops.lean ====
section
/-! SUPPORT. What each shared operation does, once and whole, with its updates written out: later proofs cite these and
never unfold the operations. -/

namespace Sys2Proof.Machine

variable (s : State)

theorem pinWrite_eq (v : Level) : pinWrite v s = { s with sckl := v, trace := s.trace ++ [.w v] } := rfl

theorem respond_eq (v : RspWord) :
    respond v s = { s with rsp := v, phase := .idle, trace := s.trace ++ [.r v] } := rfl

theorem takeOffer_eq (word : CmdWord) (rest : List CmdWord) :
    takeOffer word rest s = { s with offers := rest, trace := s.trace ++ [.c word] } := rfl

theorem pinSample_eq_cons {d : Level} {ds : List Level} (h : s.dinIn = d :: ds) :
    pinSample s = { s with dinIn := ds, trace := s.trace ++ [.s d] } := by
  cases s; simp_all [pinSample, State.append, dinNow, dinTaken]

theorem pinSample_eq_nil (h : s.dinIn = []) :
    pinSample s =
      { s with dinCount := s.dinCount + 1, trace := s.trace ++ [.s (Config.dinDraw s.cfg.dataPin s.dinCount)] } := by
  cases s; simp_all [pinSample, State.append, dinNow, dinTaken]

/-! ### Gain codes (42_gain_select.md R78) -/

@[simp] theorem gainPulsesOf_128 : gainPulsesOf 128#32 = some 1 := rfl

@[simp] theorem gainPulsesOf_64 : gainPulsesOf 64#32 = some 3 := rfl

@[simp] theorem gainPulsesOf_32 : gainPulsesOf 32#32 = some 2 := rfl

theorem gainPulsesOf_other {code : BitVec 32} (h1 : code ≠ 128) (h2 : code ≠ 64) (h3 : code ≠ 32) :
    gainPulsesOf code = none := by
  rw [gainPulsesOf, if_neg (by exact h1), if_neg (by exact h2), if_neg (by exact h3)]

theorem gainPulsesOf_cases (code : BitVec 32) :
    (code = 128 ∧ gainPulsesOf code = some 1) ∨ (code = 64 ∧ gainPulsesOf code = some 3) ∨
      (code = 32 ∧ gainPulsesOf code = some 2) ∨
      (code ≠ 128 ∧ code ≠ 64 ∧ code ≠ 32 ∧ gainPulsesOf code = none) := by
  by_cases h1 : code = 128
  · subst h1; exact .inl ⟨rfl, rfl⟩
  by_cases h2 : code = 64
  · subst h2; exact .inr (.inl ⟨rfl, rfl⟩)
  by_cases h3 : code = 32
  · subst h3; exact .inr (.inr (.inl ⟨rfl, rfl⟩))
  exact .inr (.inr (.inr ⟨h1, h2, h3, gainPulsesOf_other h1 h2 h3⟩))

/-! ### The event views over an appended event -/

@[simp] theorem writesOf_append (a b : List Event) : writesOf (a ++ b) = writesOf a ++ writesOf b := by
  simp [writesOf]

@[simp] theorem samplesOf_append (a b : List Event) : samplesOf (a ++ b) = samplesOf a ++ samplesOf b := by
  simp [samplesOf]

@[simp] theorem acceptedOf_append (a b : List Event) : acceptedOf (a ++ b) = acceptedOf a ++ acceptedOf b := by
  simp [acceptedOf]

@[simp] theorem responsesOf_append (a b : List Event) : responsesOf (a ++ b) = responsesOf a ++ responsesOf b := by
  simp [responsesOf]

theorem levelAfter_append (start : Level) (a b : List Event) :
    levelAfter start (a ++ b) = levelAfter (levelAfter start a) b := by
  simp only [levelAfter, writesOf_append, List.getLast?_append]
  cases (writesOf b).getLast? <;> rfl

theorem gainpAfter_append (g : BitVec 2) (a b : List CmdWord) :
    gainpAfter g (a ++ b) = gainpAfter (gainpAfter g a) b := by
  simp [gainpAfter]

/-! ### Data pulses and gain pulses -/

@[simp] theorem dataPulses_nil : dataPulses [] = [] := rfl

theorem dataPulses_cons (d : Level) (ds : List Level) : dataPulses (d :: ds) = dataPulse d ++ dataPulses ds := rfl

theorem dataPulses_append (a b : List Level) : dataPulses (a ++ b) = dataPulses a ++ dataPulses b := by
  simp [dataPulses]

@[simp] theorem gainPulses_zero : gainPulses 0 = [] := rfl

theorem gainPulses_succ (n : Nat) : gainPulses (n + 1) = [.w 1, .w 0] ++ gainPulses n := by
  simp [gainPulses, List.replicate_succ]

/-- One more data bit doubles the register and adds the bit (41_read.md R66). -/
theorem shiftIn_toNat (v : Reading) (d : Level) : (shiftIn v d).toNat = (2 * v.toNat + d.toNat) % 2 ^ 24 := by
  have hv := v.isLt
  have hd := d.isLt
  simp only [shiftIn, BitVec.toNat_append, BitVec.extractLsb'_toNat, Nat.shiftRight_zero]
  rw [← Nat.shiftLeft_add_eq_or_of_lt hd, Nat.shiftLeft_eq]
  omega

end Sys2Proof.Machine
end

