-- ==== Sys2Proof/Laws/Peer.lean ====
section
/-! SUPPORT. What the peer's operations do, case by case, and the steps of the bench (spec/60_exceptions.md R90 to R95,
assumption 7): later proofs cite these and never unfold the operations. -/

namespace Sys2Proof.Machine

variable (q : Pulse) (p : Peer)

/-! ### A lost peer -/

@[simp] theorem peerLost_sck (n : Nat) : (peerLost n p).sck = p.sck := by unfold peerLost; split <;> rfl
@[simp] theorem peerLost_convMode (n : Nat) : (peerLost n p).convMode = p.convMode := by unfold peerLost; split <;> rfl
@[simp] theorem peerLost_nextMode (n : Nat) : (peerLost n p).nextMode = p.nextMode := by unfold peerLost; split <;> rfl

/-- A lost peer is `unspecified` with the count given. -/
theorem peerLost_phase (n : Nat) : ∃ stray, (peerLost n p).phase = .unspecified stray n := by
  unfold peerLost; split <;> exact ⟨_, rfl⟩

theorem peerLost_of_unspecified {stray : Bool} {m : Nat} (n : Nat) (h : p.phase = .unspecified stray m) :
    peerLost n p = { p with phase := .unspecified stray n } := by simp [peerLost, h]

/-! ### The end of a conversion -/

theorem peerFinish_converting (mid : Bool) (v : Reading) (h : p.phase = .converting) :
    peerFinish mid v p = { p with phase := .ready v } := by simp [peerFinish, h]

theorem peerFinish_trailing (v : Reading) {g : Nat} (h : p.phase = .trailing g) :
    peerFinish false v p = { p with phase := .ready v, convMode := p.nextMode } := by simp [peerFinish, h]

/-- No input of the outside ends sleep (R94). -/
theorem peerInput_asleep (e : State) (i : PeerInput) (h : p.phase = .asleep) : (peerInput e i p) = p := by
  cases p; cases i <;> simp_all [peerInput, peerFinish, peerHold]

/-! ### Levels on `SCK` -/

variable {p}

theorem peerClock_same {new : Level} (h : new = p.sck) : peerClock q new p = p := if_pos h

theorem peerClock_rise (h : p.sck = 0) : peerClock q 1 p = { peerRise q p with sck := 1 } := by simp [peerClock, h]

theorem peerClock_fall (h : p.sck = 1) : peerClock q 0 p = { peerFall p with sck := 0 } := by simp [peerClock, h]

theorem peerFall_awake (h : p.phase ≠ .asleep) : peerFall p = p := by unfold peerFall; split <;> first | rfl | contradiction

theorem peerFall_asleep (h : p.phase = .asleep) :
    peerFall p = { p with phase := .converting, convMode := .a128, nextMode := .a128 } := by simp [peerFall, h]

/-- A sleeping peer sees a low level: its power-up, also where the low is a reset's (R94, R117). -/
theorem peerAfter_wakes {e e' : State} (h : p.phase = .asleep) (hs : p.sck = 1) (hn : e'.sckl = 0) :
    peerAfter e e' p = { phase := .converting, sck := 0, convMode := .a128, nextMode := .a128 } := by
  simp [peerAfter, peerEngineReset, peerClock, peerFall, h, hs, hn]

/-- A sleeping peer still sees the high level: it sleeps on. -/
theorem peerAfter_sleepsOn {e e' : State} (h : p.phase = .asleep) (hs : p.sck = 1) (hn : e'.sckl = 1) :
    peerAfter e e' p = p := by
  simp [peerAfter, peerEngineReset, peerClock, h, hs, hn]

/-! ### The pulses of a read -/

theorem peerRise_first {v : Reading} (h : p.phase = .ready v) :
    peerRise (.data 1) p = { p with phase := .shifting v 1 } := by simp [peerRise, peerDataPulse, h]

theorem peerRise_data {v : Reading} {n : Nat} (h : p.phase = .shifting v n) :
    peerRise (.data (n + 1)) p = { p with phase := .shifting v (n + 1) } := by simp [peerRise, peerDataPulse, h]

theorem peerRise_lost {stray : Bool} {n : Nat} (h : p.phase = .unspecified stray n) :
    peerRise (.data (n + 1)) p = { p with phase := .unspecified stray (n + 1) } := by
  simp [peerRise, peerDataPulse, peerLost, h]

theorem peerRise_lost_first {stray : Bool} {n : Nat} (h : p.phase = .unspecified stray n) :
    peerRise (.data 1) p = { p with phase := .unspecified stray 1 } := by
  simp [peerRise, peerDataPulse, peerLost, h]

theorem peerRise_firstGain {v : Reading} (h : p.phase = .shifting v 24) :
    peerRise (.gain 1) p = { p with phase := .trailing 1, nextMode := .a128 } := by
  simp [peerRise, peerTrailPulse, peerGainPulse, modeOfPulses, h]

theorem peerRise_gain {g : Nat} {m : Mode} (h : p.phase = .trailing g) (hm : modeOfPulses (g + 1) = some m) :
    peerRise (.gain (g + 1)) p = { p with phase := .trailing (g + 1), nextMode := m } := by
  simp [peerRise, peerTrailPulse, peerGainPulse, h, hm]

/-! ### The bench -/

variable {b c : Bench}

/-- One step of the bench, from the step of its engine. -/
theorem benchStep_next {e : State} (h : step { b.engine with dinIn := (peerDin b.peerNow).toList } = .next e) :
    benchStep b = .next
      { engine := { e with dinIn := [] }, peer := peerAfter b.engine e b.peerNow, script := b.script.tail } := by
  simp [benchStep, h]

theorem benchRun_succ (k : Nat) (h : benchStep b = .next c) : benchRun (k + 1) b = benchRun k c := by
  simp [benchRun, h]

theorem benchRun_add (m n : Nat) : ∀ {b c : Bench}, benchRun m b = .next c → benchRun (m + n) b = benchRun n c := by
  induction m with
  | zero => intro b c h; cases h; rw [Nat.zero_add]
  | succ m ih =>
    intro b c h
    rw [Nat.add_right_comm]
    simp only [benchRun] at h
    split at h
    · next hb => rw [benchRun_succ _ hb]; exact ih h
    · cases h
    · cases h

end Sys2Proof.Machine
end

