-- ==== Sys2Proof/Laws/PerInstr.lean ====
section
/-! SUPPORT. A law of every command, one lemma per constructor: the fields of its word (spec/30_encoding.md R46, R48). -/

namespace Sys2Proof.Laws.OpField

/-- The `OP` value of a command (30_encoding.md R48). -/
def opcode : Instr → BitVec 4
  | .pdown => 0x1
  | .pup => 0x2
  | .ready => 0x3
  | .read => 0x4
  | .setgain _ => 0x5

/-- The `ARG` value of a command (30_encoding.md R47, R48). -/
def argument : Instr → BitVec 8
  | .pdown => 0
  | .pup => 0
  | .ready => 0
  | .read => 0
  | .setgain code => code.setWidth 8

/-- The word of a command has the command's `OP`, `RSV = 0` and the command's `ARG`. -/
def Statement (i : Instr) : Prop :=
  opField (encode i) = opcode i ∧ rsvField (encode i) = 0 ∧ argField (encode i) = argument i

theorem pdown : Statement .pdown := ⟨opField_packWord _ _, rsvField_packWord _ _, argField_packWord _ _⟩

theorem pup : Statement .pup := ⟨opField_packWord _ _, rsvField_packWord _ _, argField_packWord _ _⟩

theorem ready : Statement .ready := ⟨opField_packWord _ _, rsvField_packWord _ _, argField_packWord _ _⟩

theorem read : Statement .read := ⟨opField_packWord _ _, rsvField_packWord _ _, argField_packWord _ _⟩

theorem setgain (code : BitVec 32) : Statement (.setgain code) :=
  ⟨opField_packWord _ _, rsvField_packWord _ _, argField_packWord _ _⟩

end Sys2Proof.Laws.OpField
end

