-- ==== Sys2Proof/Laws/Step.lean ====
section
/-! SUPPORT. What one step can do, said once: the equation of each kind of step, and the inversion of a step that answers
a next state. -/

namespace Sys2Proof.Machine

variable {s t : State}

theorem step_reset (h : resetAsserted s = true) : step s = .next (engineReset (resetTaken s)) := by
  simp [step, stepWithReset, h]

theorem step_noReset (h : resetAsserted s = false) : step s = engineStep (resetTaken s) := by
  simp [step, stepWithReset, h]

theorem engineStep_idle {word : CmdWord} {rest : List CmdWord} (hp : s.phase = .idle) (ho : s.offers = word :: rest) :
    engineStep s = dispatchWord word (takeOffer word rest s) := by
  simp [engineStep, acceptOffer, hp, ho]

/-- The acceptance step, the inputs of the step taken. -/
theorem step_accept {word : CmdWord} {rest : List CmdWord} (hp : s.phase = .idle) (ho : s.offers = word :: rest)
    (hr : resetAsserted s = false) : step s = dispatchWord word (takeOffer word rest (resetTaken s)) := by
  rw [step_noReset hr]
  exact engineStep_idle (s := resetTaken s) hp ho

theorem dispatchWord_ok {word : CmdWord} {i : Instr} (h : decode word = .ok i) : dispatchWord word s = exec i s := by
  simp [dispatchWord, h]

theorem dispatchWord_error {word : CmdWord} {e : DecodeError} (h : decode word = .error e) :
    dispatchWord word s = .next (raiseIllegalCommand word s) := by
  simp [dispatchWord, h]

/-- What the acceptance of a word can do. -/
inductive Accepts (word : CmdWord) (s : State) : State → Prop where
  | pdown (h : decode word = .ok .pdown) : Accepts word s (pdownState s)
  | pup (h : decode word = .ok .pup) : Accepts word s (respond 0 (pinWrite 0 s))
  | ready (h : decode word = .ok .ready) : Accepts word s (respond (readyResponse (dinNow s)) (pinSample s))
  | read (h : decode word = .ok .read) : Accepts word s { s with cur := .read, phase := .wait }
  | setgain {code : BitVec 32} (h : decode word = .ok (.setgain code)) : Accepts word s (setgainState code s)
  | illegal {e : DecodeError} (h : decode word = .error e) : Accepts word s (raiseIllegalCommand word s)

theorem dispatchWord_cases {word : CmdWord} (h : dispatchWord word s = .next t) : Accepts word s t := by
  rcases hd : decode word with e | i
  · rw [dispatchWord_error hd] at h; cases h; exact .illegal hd
  · rw [dispatchWord_ok hd] at h
    cases i <;> cases h
    · exact .pdown hd
    · exact .pup hd
    · exact .ready hd
    · exact .read hd
    · exact .setgain hd

/-- What a step without reset can do. -/
inductive Moves (s : State) : State → Prop where
  | accept {word : CmdWord} {rest : List CmdWord} {t : State} (hp : s.phase = .idle) (ho : s.offers = word :: rest)
      (h : Accepts word (takeOffer word rest s) t) : Moves s t
  | wait (hp : s.phase = .wait) : Moves s (stepWait s)
  | drise (hp : s.phase = .drise) : Moves s (stepDrise s)
  | dsamp (hp : s.phase = .dsamp) : Moves s (stepDsamp s)
  | dfall (hp : s.phase = .dfall) : Moves s (stepDfall s)
  | grise (hp : s.phase = .grise) : Moves s (stepGrise s)
  | gfall (hp : s.phase = .gfall) : Moves s (stepGfall s)
  | pdhi (hp : s.phase = .pdhi) : Moves s (stepPdhi s)

theorem engineStep_cases (h : engineStep s = .next t) : Moves s t := by
  unfold engineStep at h
  split at h
  · next hp =>
    unfold acceptOffer at h
    split at h
    · next ho => exact .accept hp ho (dispatchWord_cases h)
    · cases h
  · next hp => cases h; exact .wait hp
  · next hp => cases h; exact .drise hp
  · next hp => cases h; exact .dsamp hp
  · next hp => cases h; exact .dfall hp
  · next hp => cases h; exact .grise hp
  · next hp => cases h; exact .gfall hp
  · next hp => cases h; exact .pdhi hp

/-- What a step can do: a reset, or a move of the engine. -/
theorem step_cases (h : step s = .next t) :
    (resetAsserted s = true ∧ t = engineReset (resetTaken s)) ∨ (resetAsserted s = false ∧ Moves (resetTaken s) t) := by
  cases hr : resetAsserted s with
  | true => rw [step_reset hr] at h; cases h; exact .inl ⟨rfl, rfl⟩
  | false => rw [step_noReset hr] at h; exact .inr ⟨rfl, engineStep_cases h⟩

/-! ### Runs -/

theorem run_zero : run 0 s = .next s := rfl

theorem coreRun_succ (M : Host.Core) (k : Nat) (s t : M.State) (h : M.step s = .next t) :
    M.run (k + 1) s = M.run k t := by
  simp only [Host.Core.run, h]

/-- A run that answers a next state has a first step that does. -/
theorem coreRun_succ_cases (M : Host.Core) (k : Nat) (s t : M.State) (h : M.run (k + 1) s = .next t) :
    ∃ u, M.step s = .next u ∧ M.run k u = .next t := by
  simp only [Host.Core.run] at h
  split at h
  · next u hu => exact ⟨u, hu, h⟩
  · cases h
  · cases h

theorem run_succ (k : Nat) (h : step s = .next t) : run (k + 1) s = run k t :=
  coreRun_succ Sys2Proof.core k s t h

theorem run_succ_cases {k : Nat} (h : run (k + 1) s = .next t) : ∃ u, step s = .next u ∧ run k u = .next t :=
  coreRun_succ_cases Sys2Proof.core k s t h

theorem run_add (a b : Nat) : ∀ {s t : State}, run a s = .next t → run (a + b) s = run b t := by
  induction a with
  | zero => intro s t h; cases h; rw [Nat.zero_add]
  | succ a ih =>
    intro s t h
    obtain ⟨u, hu, hut⟩ := run_succ_cases h
    rw [Nat.add_right_comm, run_succ _ hu]
    exact ih hut

/-! ### Reset input over several steps -/

theorem NoReset.head {k : Nat} (h : NoReset (k + 1) s) : resetAsserted s = false := by
  unfold NoReset at h
  unfold resetAsserted
  split
  · next r rs hr => rw [hr] at h; exact h r (by simp)
  · rfl

theorem NoReset.tail {k : Nat} (h : NoReset (k + 1) s) (ht : t.resets = s.resets.tail) : NoReset k t := by
  unfold NoReset at h ⊢
  intro r hr
  apply h r
  rw [ht] at hr
  cases hs : s.resets with
  | nil => rw [hs] at hr; simp at hr
  | cons x xs => rw [hs] at hr; simp_all

end Sys2Proof.Machine
end

