-- ==== Sys2Proof/Laws/ReadSeq.lean ====
section
/-! SUPPORT. The micro-steps (spec/41_read.md R64 to R72, 40_line_control.md R58), one equation for each case of each rule,
and the step of each `PHASE`. -/

namespace Sys2Proof.Machine

variable {s : State}

/-! ### The cases of the micro-steps -/

theorem stepWait_ready (h : dinNow s = 0) :
    stepWait s = { pinSample s with shift := 0, bitcnt := 0, phase := .drise } := if_pos h

theorem stepWait_busy (h : dinNow s ≠ 0) : stepWait s = pinSample s := if_neg h

theorem stepDfall_last (h : s.bitcnt = 24) :
    stepDfall s = { pinWrite 0 s with pulsecnt := 0, phase := .grise } := if_pos h

theorem stepDfall_more (h : s.bitcnt ≠ 24) : stepDfall s = { pinWrite 0 s with phase := .drise } := if_neg h

theorem stepGfall_last (h : s.pulsecnt + 1 = s.gainp) : stepGfall s = finish (gainPulseDone s) := if_pos h

theorem stepGfall_more (h : s.pulsecnt + 1 ≠ s.gainp) :
    stepGfall s = { gainPulseDone s with phase := .grise } := if_neg h

theorem finish_read (h : s.cur = .read) : finish s = respond (sext32 s.shift) s := by simp [finish, finishResponse, h]

theorem finish_setgain (h : s.cur = .setgain) : finish s = respond 0 s := by simp [finish, finishResponse, h]

/-! ### The step of each phase -/

theorem step_wait (hp : s.phase = .wait) (hr : resetAsserted s = false) : step s = .next (stepWait (resetTaken s)) := by
  rw [step_noReset hr]; simp [engineStep, hp]

theorem step_drise (hp : s.phase = .drise) (hr : resetAsserted s = false) :
    step s = .next (stepDrise (resetTaken s)) := by
  rw [step_noReset hr]; simp [engineStep, hp]

theorem step_dsamp (hp : s.phase = .dsamp) (hr : resetAsserted s = false) :
    step s = .next (stepDsamp (resetTaken s)) := by
  rw [step_noReset hr]; simp [engineStep, hp]

theorem step_dfall (hp : s.phase = .dfall) (hr : resetAsserted s = false) :
    step s = .next (stepDfall (resetTaken s)) := by
  rw [step_noReset hr]; simp [engineStep, hp]

theorem step_grise (hp : s.phase = .grise) (hr : resetAsserted s = false) :
    step s = .next (stepGrise (resetTaken s)) := by
  rw [step_noReset hr]; simp [engineStep, hp]

theorem step_gfall (hp : s.phase = .gfall) (hr : resetAsserted s = false) :
    step s = .next (stepGfall (resetTaken s)) := by
  rw [step_noReset hr]; simp [engineStep, hp]

theorem step_pdhi (hp : s.phase = .pdhi) (hr : resetAsserted s = false) : step s = .next (stepPdhi (resetTaken s)) := by
  rw [step_noReset hr]; simp [engineStep, hp]

end Sys2Proof.Machine
end

