-- ==== Sys2Proof/Tests/Slice0.lean ====
section
/-! SUPPORT. Tests of the model: expected values are the spec's (each theorem names its vector of 95_test_vectors.md or its
rule). Then, for every statement with hypotheses, a witness that meets them. -/

namespace Sys2Proof.Tests

open Sys2Proof.Machine

/-! ### Well-formed and ill-formed commands (30_encoding.md R47) -/

theorem test_wf_refuses_code_256 : (Instr.setgain 256).wellFormed = false := by decide

theorem test_wf_refuses_largest_code : (Instr.setgain 0xFFFFFFFF).wellFormed = false := by decide

theorem test_wf_accepts :
    (Instr.setgain 0).wellFormed = true ∧ (Instr.setgain 255).wellFormed = true ∧ Instr.pdown.wellFormed = true ∧
      Instr.pup.wellFormed = true ∧ Instr.ready.wellFormed = true ∧ Instr.read.wellFormed = true := by decide

/-! ### Decoding of words written out bit by bit: `ARG` 8 bits, `RSV` 4 bits, `OP` 4 bits (R46, R48) -/

theorem test_decode_pdown : decode 0b0000000000000001#16 = .ok .pdown := by decide

theorem test_decode_pup : decode 0b0000000000000010#16 = .ok .pup := by decide

theorem test_decode_ready : decode 0b0000000000000011#16 = .ok .ready := by decide

theorem test_decode_read : decode 0b0000000000000100#16 = .ok .read := by decide

theorem test_decode_setgain :
    decode 0b1000000000000101#16 = .ok (.setgain 128) ∧ decode 0b0110001100000101#16 = .ok (.setgain 99) ∧
      decode 0b1111111100000101#16 = .ok (.setgain 255) := by decide

/-- V9a to V9i. -/
theorem test_decode_illegal :
    decode 0x0000 = .error .reservedOp ∧ decode 0x0006 = .error .reservedOp ∧ decode 0x000F = .error .reservedOp ∧
      decode 0x0014 = .error .reservedField ∧ decode 0x00F5 = .error .reservedField ∧
      decode 0x0104 = .error .nonzeroArg ∧ decode 0x8015 = .error .reservedField ∧
      decode 0xFF00 = .error .reservedOp ∧ decode 0xFFFF = .error .reservedField := by decide

theorem test_decodeTableWord :
    decodeTableWord 16 0x4005 = some (.setgain 64) ∧ decodeTableWord 16 0x0004 = some .read ∧
      decodeTableWord 16 0x0204 = none := by decide

/-! ### One step on a small state -/

/-- The state after one step, where there is one. -/
def after (s : State) : Option State :=
  match step s with
  | .next t => some t
  | .fault _ => none
  | .refused _ => none

/-- The reset state with one word offered and one level fixed. -/
def offered (w : CmdWord) (d : Level) : State := { State.reset with offers := [w], dinIn := [d] }

/-- V10. -/
theorem test_pdown :
    (after (offered 0x0001 0)).map (fun t => (t.trace, t.status, t.phase)) =
      some ([.c 0x0001, .w 1, .r 0x00000000], 0x14, .idle) := by decide

/-- V12: the state after the first step. -/
theorem test_pdown_low_then_high :
    (after { offered 0x0001 0 with cfg := { Config.standard with pdownForm := .lowThenHigh } }).map
      (fun t => (t.trace, t.status, t.phase)) = some ([.c 0x0001, .w 0], 0x11, .pdhi) := by decide

/-- V13. -/
theorem test_pup :
    (after { offered 0x0002 0 with sckl := 1 }).map (fun t => (t.trace, t.status, t.rsp)) =
      some ([.c 0x0002, .w 0, .r 0x00000000], 0x10, 0) := by decide

/-- V15a. -/
theorem test_ready_low :
    (after (offered 0x0003 0)).map (fun t => (t.trace, t.rsp, t.dinIn)) =
      some ([.c 0x0003, .s 0, .r 0x00000001], 1, []) := by decide

/-- V15b. -/
theorem test_ready_high :
    (after (offered 0x0003 1)).map (fun t => (t.trace, t.rsp, t.sckl)) =
      some ([.c 0x0003, .s 1, .r 0x00000000], 0, 0) := by decide

/-- V23: after the acceptance step. -/
theorem test_read :
    (after { offered 0x0004 0 with cur := .setgain }).map (fun t => (t.trace, t.status, t.phase, t.cur)) =
      some ([.c 0x0004], 0x11, .wait, .read) := by decide

/-- V38. -/
theorem test_setgain_64 :
    (after (offered 0x4005 0)).map (fun t => (t.trace, t.status, t.gainp, t.cur)) =
      some ([.c 0x4005, .w 0], 0x31, 3, .setgain) := by decide

/-- V34. -/
theorem test_setgain_99_skip :
    (after { offered 0x6305 0 with gainp := 2, cfg := { Config.standard with setgainTail := .skip } }).map
      (fun t => (t.trace, t.gainp, t.ill, t.dinIn)) = some ([.c 0x6305, .r 0x00000000], 2, false, [0]) := by decide

/-- V40, with V9d. -/
theorem test_illegal :
    (after (offered 0x0014 0)).map (fun t => (t.trace, t.status, t.badcmd, t.sckl)) =
      some ([.c 0x0014, .r 0x00000000], 0x12, 0x0014, 0) := by decide

/-- A read in progress: `PHASE`, `BITCNT`, `PULSECNT`, `SHIFT` and `SCKL` as given. -/
def reading (p : Phase) (bits : BitVec 5) (pulses : BitVec 2) (v : Reading) (sck : Level) : State :=
  { State.reset with phase := p, bitcnt := bits, pulsecnt := pulses, shift := v, sckl := sck, dinIn := [0, 1] }

/-- V26: readiness clears what the last read left (R64). -/
theorem test_poll_ready :
    (after (reading .wait 24 1 0xFFFFFF 0)).map (fun t => (t.shift, t.bitcnt, t.phase, t.trace)) =
      some (0, 0, .drise, [.s 0]) := by decide

/-- R66: the new bit enters at bit 0 and bit 23 leaves. -/
theorem test_dsamp :
    (after { reading .dsamp 23 0 0xC00001 1 with dinIn := [1] }).map (fun t => (t.shift, t.bitcnt, t.phase)) =
      some (0x800003, 24, .dfall) := by decide

/-- V23: after the 24th `DFALL` step. -/
theorem test_dfall_last :
    (after (reading .dfall 24 3 0 1)).map (fun t => (t.phase, t.bitcnt, t.pulsecnt, t.sckl)) =
      some (.grise, 24, 0, 0) := by decide

/-- V23 and V20 with 0x800000: the last `GFALL` step answers. -/
theorem test_gfall_last :
    (after (reading .gfall 24 0 0x800000 1)).map (fun t => (t.rsp, t.status, t.pulsecnt, t.trace)) =
      some (0xFF800000, 0x10, 1, [.w 0, .r 0xFF800000]) := by decide

/-- V37: a throwaway read answers 0. -/
theorem test_gfall_setgain :
    (after { reading .gfall 24 2 0x7FFFFF 1 with cur := .setgain, gainp := 3 }).map (fun t => (t.rsp, t.trace)) =
      some (0, [.w 0, .r 0]) := by decide

/-- V51: reset in mid-read; it takes no offered word and appends no event. -/
theorem test_reset :
    (after { reading .dfall 10 0 0x2A5 1 with resets := [true], gainp := 3, offers := [0x0001], trace := [.w 1] }).map
      (fun t => (t.sckl, t.status, t.trace, t.offers)) = some (0, 0x10, [], [0x0001]) := by decide

/-- V20, the sign boundaries. -/
theorem test_sext :
    sext32 0x7FFFFF = 0x007FFFFF ∧ sext32 0x800000 = 0xFF800000 ∧ sext32 0xABCDEF = 0xFFABCDEF ∧
      sext32 0xFFFF9C = 0xFFFFFF9C := by decide

/-- V21. -/
theorem test_group_order :
    msbFirst ([0,0,0,1,0,0,1,0] ++ [0,0,1,1,0,1,0,0] ++ [0,1,0,1,0,1,1,0]) = 0x123456 := by decide

/-- R54, R55, R56: a comment, hexadecimal codes, a refused value, and V9i. -/
theorem test_assembler :
    assembleLine [';', ' ', 'x'] = .blank ∧ assembleLine [' ', 'p', 'u', 'p', ' ', ';', 'x'] = .word 0x0002 ∧
      assembleLine (textSetgain ++ [' ', '0', 'x', 'F', 'F']) = .word 0xFF05 ∧
      assembleLine (textSetgain ++ [' ', '2', '5', '6']) = .bad ∧ assembleLine textGainB32 = .word 0x2005 ∧
      disassemble 0xFFFF = textWord ++ [' ', '0', 'x', 'F', 'F', 'F', 'F'] := by decide

/-- The host's placing of a word, over a reset input that would compete and from a busy state. -/
theorem test_withFetchWord :
    (after ((State.reset).withFetchWord 16 0x2005)).map (fun t => (t.gainp, t.phase)) = some (2, .wait) ∧
      (after ({ reading .dsamp 3 0 0 1 with resets := [true, true] }.withFetchWord 16 0x0002)).map
        (fun t => (t.trace, t.resets)) = some ([.c 0x0002, .w 0, .r 0], [true]) := by decide

/-! ### Witnesses: a state and operands that meet the hypotheses of each statement -/

theorem noReset_of_nil {s : State} (k : Nat) (h : s.resets = []) : NoReset k s := by simp [NoReset, h]

theorem witness_reset_gives : ∃ (s : State) (rest : List Bool), s.resets = true :: rest ∧ s.phase = .dsamp ∧ s.gainp = 3 :=
  ⟨{ reading .dsamp 9 0 5 1 with resets := [true], gainp := 3 }, [], rfl, rfl, rfl⟩

theorem witness_illegal_words :
    ∀ w ∈ [0x0000#16, 0x0006#16, 0x000F#16, 0x0010#16, 0x00F5#16, 0x0101#16, 0xFF04#16], ∃ (e : DecodeError) (s : State) (os : List CmdWord),
      decode w = .error e ∧ s.phase = .idle ∧ s.offers = w :: os ∧ resetAsserted s = false := by
  intro w hw
  have h : ∃ e, decode w = .error e := by fin_cases hw <;> exact ⟨_, rfl⟩
  exact ⟨h.choose, { State.reset with offers := [w] }, [], h.choose_spec, rfl, rfl, rfl⟩

theorem witness_word_counts :
    decode 0x0005 = .ok (.setgain 0) ∧ decode 0xFF05 = .ok (.setgain 255) ∧ decode 0x8005 = .ok (.setgain 128) := by
  decide

theorem witness_disassembly : decode 0xFF05 = .ok (.setgain 255) ∧ decode 0xFFFF = .error .reservedField := by decide

theorem witness_pseudo : assembleOne textGainA64 = .word 0x4005 ∧ assembleOne textPdown = .word 0x0001 := by decide

theorem witness_assembler_range :
    numberValue ['0'] = some 0 ∧ numberValue ['2', '5', '5'] = some 255 ∧ numberValue ['0', 'x', 'f', 'F'] = some 255 ∧
      numberValue ['2', '5', '6'] = some 256 ∧ numberValue ['0', 'x', '1', '0', '0'] = some 256 ∧
      numberValue ['0', 'x'] = none ∧ numberValue ['-', '1'] = none := by decide

theorem witness_step_runs :
    ∀ w ∈ [0x0001#16, 0x0002#16, 0x0003#16, 0x0004#16, 0x0005#16, 0xFF05#16], ∃ (s : State) (os : List CmdWord) (i : Instr),
      s.phase = .idle ∧ s.offers = w :: os ∧ resetAsserted s = false ∧ decode w = .ok i := by
  intro w hw
  have h : ∃ i, decode w = .ok i := by fin_cases hw <;> exact ⟨_, rfl⟩
  exact ⟨{ State.reset with offers := [w], resets := [false, true] }, [], h.choose, rfl, rfl, rfl, h.choose_spec⟩

theorem witness_step_exists :
    resetAsserted State.reset = false ∧ State.reset.phase = .idle ∧ State.reset.offers = [] := ⟨rfl, rfl, rfl⟩

theorem witness_pdown :
    (offered 0x0001 0).cfg.pdownForm = .highOnly ∧
      ({ Config.standard with pdownForm := .lowThenHigh }).pdownForm = .lowThenHigh ∧
      (reading .pdhi 0 0 0 0).phase = .pdhi ∧ resetAsserted (reading .pdhi 0 0 0 0) = false := by decide

theorem witness_ready : (offered 0x0003 1).dinIn = [1] ∧ State.reset.dinIn = [] := by decide

/-- The reset state under `LOW_THEN_HIGH` with `pdown; pup` offered. -/
def cycleOffered (f : PdownForm) : State :=
  { State.reset with
    offers := [0x0001, 0x0002]
    cfg := { Config.standard with pdownForm := f }
    resets := [false, false, false, true] }

theorem witness_pdown_pup :
    ∀ f : PdownForm, (cycleOffered f).phase = .idle ∧ (cycleOffered f).sckl = 0 ∧
      (cycleOffered f).offers = 0x0001 :: 0x0002 :: [] ∧ NoReset 3 (cycleOffered f) ∧
      (cycleOffered f).cfg.pdownForm = f :=
  fun _ => ⟨rfl, rfl, rfl, by simp [NoReset, cycleOffered], rfl⟩

theorem witness_ready_twice : ∃ (s : State) (os : List CmdWord) (d : Level) (ds : List Level),
    s.phase = .idle ∧ s.offers = 0x0003 :: 0x0003 :: os ∧ s.dinIn = d :: d :: ds ∧ NoReset 2 s :=
  ⟨{ State.reset with offers := [3, 3], dinIn := [1, 1] }, [], 1, [], rfl, rfl, rfl, noReset_of_nil _ rfl⟩

theorem witness_poll :
    (reading .wait 0 0 0 0).phase = .wait ∧ dinNow (reading .wait 0 0 0 0) = 0 ∧
      dinNow { reading .wait 0 0 0 0 with dinIn := [1] } = 1 ∧ NoReset 1 (reading .wait 0 0 0 0) ∧
      ({ reading .wait 0 0 0 0 with dinIn := [1, 1] }).dinIn = List.replicate 2 1 ++ [] ∧
      (reading .wait 0 0 0 0).dinIn = List.replicate 0 1 ++ [0, 1] :=
  ⟨rfl, rfl, rfl, noReset_of_nil _ rfl, rfl, rfl⟩

theorem witness_data_pulse :
    resetAsserted (reading .drise 0 0 0 1) = false ∧ (reading .drise 0 0 0 1).phase = .drise ∧
      (reading .dsamp 23 0 0 1).phase = .dsamp ∧ (reading .dsamp 23 0 0 1).dinIn = 0 :: [1] ∧
      ({ reading .dsamp 0 0 0 1 with dinIn := [] }).dinIn = [] ∧ (reading .dfall 24 0 0 1).bitcnt = 24 ∧
      (reading .dfall 23 0 0 1).phase = .dfall ∧ (reading .dfall 23 0 0 1).bitcnt ≠ 24 := by decide

theorem witness_gain_pulse :
    (reading .grise 24 0 0 0).phase = .grise ∧ (reading .gfall 24 0 0 1).phase = .gfall ∧
      (reading .gfall 24 0 0 1).pulsecnt + 1 = (reading .gfall 24 0 0 1).gainp ∧
      (reading .gfall 24 0 0 1).cur = .read ∧
      ({ reading .gfall 24 1 0 1 with gainp := 3 }).pulsecnt + 1 ≠ ({ reading .gfall 24 1 0 1 with gainp := 3 }).gainp ∧
      ({ reading .gfall 24 0 0 1 with cur := .setgain }).cur = .setgain := by decide

theorem witness_shift_register : ∃ (s : State), s.phase = .wait ∧ dinNow s = 0 ∧ NoReset 73 s :=
  ⟨reading .wait 24 1 0xFFFFFF 1, rfl, rfl, noReset_of_nil _ rfl⟩

theorem witness_sign : (0x7FFFFF : Reading).getLsbD 23 = false ∧ (0x800000 : Reading).getLsbD 23 = true := by decide

/-- An idle engine with a word offered, a pulse count and a level on the clock line, and `k` polls to go. -/
def queued (w : CmdWord) (g : BitVec 2) (sck : Level) (k : Nat) (ds : List Level) : State :=
  { State.reset with offers := [w], gainp := g, sckl := sck, dinIn := List.replicate k 1 ++ 0 :: ds ++ [1] }

theorem witness_read_appends : ∀ g : BitVec 2, g ≠ 0 → ∃ (s : State) (os : List CmdWord) (k : Nat) (ds : List Level) (more : List Level),
    s.phase = .idle ∧ s.gainp = g ∧ s.gainp ≠ 0 ∧ s.offers = 0x0004 :: os ∧ ds.length = 24 ∧
      s.dinIn = List.replicate k 1 ++ 0 :: ds ++ more ∧ NoReset (74 + k + 2 * s.gainp.toNat) s :=
  fun g hg => ⟨queued 0x0004 g 1 2 (List.replicate 24 1), [], 2, List.replicate 24 1, [1], rfl, rfl, hg, rfl, rfl, rfl,
    noReset_of_nil _ rfl⟩

theorem witness_read_hangs : ∃ (s : State) (os : List CmdWord) (k : Nat) (more : List Level),
    s.phase = .idle ∧ s.gainp ≠ 0 ∧ s.offers = 0x0004 :: os ∧ s.dinIn = List.replicate k 1 ++ more ∧ NoReset (1 + k) s :=
  ⟨{ State.reset with offers := [4], dinIn := [1, 1, 1] }, [], 3, [], rfl, by decide, rfl, rfl, noReset_of_nil _ rfl⟩

theorem witness_read_ends : ∃ (s : State) (t : State),
    s.phase = .wait ∧ NoReset 1 s ∧ run 1 s = .next t ∧ t.trace = s.trace ++ [.s 1] ∧ Event.s 0 ∉ [Event.s 1] :=
  ⟨{ reading .wait 0 0 0 0 with dinIn := [1] }, _, rfl, noReset_of_nil _ rfl, rfl, rfl, by decide⟩

theorem witness_setgain_other :
    (99 : BitVec 32) ≠ 128 ∧ (99 : BitVec 32) ≠ 64 ∧ (99 : BitVec 32) ≠ 32 ∧ Config.standard.setgainTail = .perform ∧
      ({ Config.standard with setgainTail := .skip }).setgainTail = .skip := by decide

theorem witness_setgain_appends :
    ∀ p ∈ [(0x8005#16, 128#32, 1#2), (0x4005#16, 64#32, 3#2), (0x2005#16, 32#32, 2#2), (0x6305#16, 99#32, 3#2)],
      ∃ (s : State) (os : List CmdWord) (k : Nat) (ds : List Level) (more : List Level), s.phase = .idle ∧ s.gainp ≠ 0 ∧ s.offers = p.1 :: os ∧ decode p.1 = .ok (.setgain p.2.1) ∧
        p.2.2 = (gainPulsesOf p.2.1).getD s.gainp ∧ s.cfg.setgainTail = .perform ∧ ds.length = 24 ∧
        s.dinIn = List.replicate k 1 ++ 0 :: ds ++ more ∧ NoReset (74 + k + 2 * p.2.2.toNat) s := by
  intro p hp
  refine ⟨queued p.1 3 1 1 (List.replicate 24 0), [], 1, List.replicate 24 0, [1], rfl, (by decide : (3 : BitVec 2) ≠ 0), rfl,
    ?_, ?_, rfl, rfl, rfl, noReset_of_nil _ rfl⟩ <;> fin_cases hp <;> rfl

theorem witness_setgain_skips : ∃ (s : State) (os : List CmdWord),
    s.phase = .idle ∧ s.gainp ≠ 0 ∧ s.offers = 0x6305 :: os ∧ decode 0x6305 = .ok (.setgain 99) ∧
      gainPulsesOf 99 = none ∧ s.cfg.setgainTail = .skip ∧ resetAsserted s = false :=
  ⟨{ State.reset with offers := [0x6305], cfg := { Config.standard with setgainTail := .skip } }, [], rfl, by decide, rfl,
    by decide, by decide, rfl, rfl⟩

/-- The last data bit is in, in mode 64×. -/
def midRead : State := { reading .dfall 24 0 5 1 with gainp := 3 }

theorem witness_invariants : Inv midRead ∧ ∃ t, step midRead = .next t ∧ t.phase = .grise :=
  ⟨by constructor <;> decide, _, rfl, rfl⟩

theorem witness_past_polls :
    ∀ s ∈ [midRead, reading .drise 0 0 0 1, reading .drise 23 0 0 0, reading .dsamp 23 0 0 1, reading .grise 24 0 0 0,
        { reading .gfall 24 2 0 1 with gainp := 3 },
        { reading .pdhi 0 0 0 0 with cfg := { Config.standard with pdownForm := .lowThenHigh } }],
      Inv s ∧ s.phase ≠ .idle ∧ s.phase ≠ .wait ∧ NoReset 78 s := by
  intro s hs
  fin_cases hs <;> exact ⟨by constructor <;> decide, by decide, by decide, noReset_of_nil _ rfl⟩

/-- A program offered after reset: one read that is answered or hangs, and an illegal word. -/
theorem witness_run_ends : ∃ s program, Inv s ∧ s.phase = .idle ∧ s.trace = [] ∧ s.resets = [] ∧ s.offers = program ∧
    program = [0x0004, 0x0007] :=
  ⟨{ State.reset with offers := [4, 7] }, _, by constructor <;> decide, rfl, rfl, rfl, rfl, rfl⟩

theorem witness_no_end :
    (reading .wait 0 0 0 0).phase = .wait ∧ ∃ s t, [0x0004#16] ≠ [] ∧ resetAsserted s = true ∧ s.phase = .wait ∧
      step s = .next t :=
  ⟨rfl, { reading .wait 0 0 0 0 with resets := [true] }, _, by decide, rfl, rfl, rfl⟩

/-- 60_exceptions.md R104: an answered word ends its run, an abandoned one does not. -/
theorem test_run_ended :
    RunEnded [0x0002] { State.reset with trace := [.c 0x0002, .w 0, .r 0] } ∧ ¬RunEnded [0x0004] State.reset :=
  ⟨⟨rfl, rfl, rfl, rfl⟩, fun h => absurd h.accepted (by decide)⟩

/-- A state whose registers and history agree: `setgain 32` accepted, one poll taken. -/
def agreed : State :=
  { reading .wait 0 0 0 0 with trace := [.c 0x0000, .r 0, .c 0x2005, .w 0, .s 1], gainp := 2, ill := true, cur := .setgain }

theorem witness_history : TraceInv agreed ∧ ∃ t, step agreed = .next t :=
  ⟨by constructor <;> decide, _, rfl⟩

theorem witness_gainp_changes : ∃ (s : State) (t : State), step s = .next t ∧ resetAsserted s = false ∧ t.gainp ≠ s.gainp :=
  ⟨offered 0x4005 0, _, rfl, rfl, by decide⟩

theorem witness_ill :
    (∃ t, step (offered 0x0000 0) = .next t ∧ t.ill = true) ∧ ∃ t, step (offered 0x0002 0) = .next t ∧ t.ill = false :=
  ⟨⟨_, rfl, rfl⟩, _, rfl, rfl⟩

/-- A step without reset that answers a next state: the hypotheses of the observation, pin event and clock level rules. -/
theorem witness_step : ∃ t, step (reading .drise 3 0 1 0) = .next t ∧ resetAsserted (reading .drise 3 0 1 0) = false :=
  ⟨_, rfl, rfl⟩

theorem witness_busy : (reading .gfall 24 0 0 1).phase ≠ .idle ∧ (reading .pdhi 0 0 0 0).phase ≠ .idle := by decide

theorem witness_no_sample : ∃ (s : State) (t : State), step s = .next t ∧ resetAsserted s = false ∧ s.phase ≠ .wait ∧ s.phase ≠ .dsamp ∧
    s.phase = .idle ∧ ∀ w os, s.offers = w :: os → decode w ≠ .ok .ready :=
  ⟨offered 0x0004 0, _, rfl, rfl, by decide, by decide, rfl, fun w os h => by cases h; decide⟩

theorem witness_command_frames :
    (∀ code, Instr.setgain 99 = .setgain code → gainPulsesOf code = none) ∧
      (∃ t, exec .read State.reset = .next t ∧ t.phase ≠ .idle) ∧
      (∃ t, exec (.setgain 99) State.reset = .next t ∧ t.phase ≠ .idle) :=
  ⟨fun _ h => by cases h; decide, ⟨_, rfl, by decide⟩, _, rfl, by decide⟩

theorem witness_micro_frames : ∀ p : Phase, p ≠ .idle → ∃ (s : State), s.phase = p ∧ s.phase ≠ .idle ∧ resetAsserted s = false :=
  fun p hp => ⟨reading p 1 0 0 1, rfl, hp, rfl⟩

/-! ### Witnesses of the peer and platform statements -/

/-- A peer with a latched result, converted in Channel B. -/
def latched : Peer := { phase := .ready 0x800001, sck := 0, convMode := .b32, nextMode := .b32 }

/-- A peer converting behind two trailing pulses. -/
def behindRead : Peer := { phase := .trailing 2, sck := 0, convMode := .a128, nextMode := .b32 }

theorem witness_peer_latched : ∃ (b : Bench) (os : List CmdWord) (v : Reading),
    b.engine.phase = .idle ∧ b.engine.gainp ≠ 0 ∧ b.engine.offers = 0x0004 :: os ∧ b.engine.sckl = 0 ∧ b.peer.sck = 0 ∧
      b.engine.resets = [] ∧ b.peer.phase = .ready v ∧ b.script = [] :=
  ⟨⟨offered 0x0004 0, latched, []⟩, [], 0x800001, rfl, by decide, rfl, rfl, rfl, rfl, rfl, rfl⟩

theorem witness_peer_waits : ∃ (b : Bench) (os : List CmdWord) (v : Reading) (k g : Nat),
    b.engine.phase = .idle ∧ b.engine.gainp ≠ 0 ∧ b.engine.offers = 0x0004 :: os ∧ b.engine.sckl = 0 ∧ b.peer.sck = 0 ∧
      b.engine.resets = [] ∧ b.peer.phase = .trailing g ∧ b.script = List.replicate (k + 1) .quiet ++ [.finish v] :=
  ⟨⟨offered 0x0004 0, behindRead, [.quiet, .quiet, .quiet, .finish 0x7FFFFF]⟩, [], 0x7FFFFF, 2, 2, rfl, by decide, rfl, rfl,
    rfl, rfl, rfl, rfl⟩

/-- A first read after a power-up: the peer converts in its default mode. -/
theorem witness_peer_converting : ∃ (b : Bench) (os : List CmdWord) (v : Reading) (k : Nat),
    b.engine.phase = .idle ∧ b.engine.gainp ≠ 0 ∧ b.engine.offers = 0x0004 :: os ∧ b.engine.sckl = 0 ∧ b.peer.sck = 0 ∧
      b.engine.resets = [] ∧ b.peer.phase = .converting ∧ b.script = List.replicate (k + 1) .quiet ++ [.finish v] :=
  ⟨⟨offered 0x0004 0, { behindRead with phase := .converting }, [.quiet, .finish 0x7FFFFF]⟩, [], 0x7FFFFF, 0, rfl, by decide,
    rfl, rfl, rfl, rfl, rfl, rfl⟩

theorem witness_lost_peer : ∀ stray : Bool, ∃ (b : Bench) (n : Nat),
    b.engine.phase = .drise ∧ b.engine.bitcnt = 0 ∧ b.engine.gainp ≠ 0 ∧ b.engine.sckl = 0 ∧ b.peer.sck = 0 ∧
      b.engine.resets = [] ∧ b.script = [] ∧ b.peer.phase = .unspecified stray n :=
  fun stray => ⟨⟨reading .drise 0 0 0 0, { latched with phase := .unspecified stray 9 }, []⟩, 9, rfl, rfl, (by decide : (1 : BitVec 2) ≠ 0), rfl, rfl,
    rfl, rfl, rfl⟩

theorem witness_peer_setgain :
    ∀ p ∈ [(0x8005#16, 128#32, 1#2, Mode.a128), (0x4005#16, 64#32, 3#2, Mode.a64), (0x2005#16, 32#32, 2#2, Mode.b32)],
      ∃ (b : Bench) (os : List CmdWord) (v : Reading),
        b.engine.phase = .idle ∧ b.engine.offers = p.1 :: os ∧ decode p.1 = .ok (.setgain p.2.1) ∧
          gainPulsesOf p.2.1 = some p.2.2.1 ∧ modeOfPulses p.2.2.1.toNat = some p.2.2.2 ∧ b.engine.sckl = b.peer.sck ∧
          b.engine.resets = [] ∧ b.peer.phase = .ready v ∧ b.peer.sck = 0 ∧ b.script = [] := by
  intro p hp
  refine ⟨⟨offered p.1 0, latched, []⟩, [], 0x800001, rfl, rfl, ?_, ?_, ?_, rfl, rfl, rfl, rfl, rfl⟩ <;> fin_cases hp <;> rfl

/-- The same with a peer that converts, one behind a read, and one that sleeps with the line high. -/
theorem witness_peer_setgain_waits :
    ∀ q ∈ [(PeerPhase.converting, 0#1), (.trailing 2, 0#1), (.asleep, 1#1)], ∃ (b : Bench) (os : List CmdWord) (v : Reading) (k : Nat),
      b.engine.phase = .idle ∧ b.engine.offers = 0x4005 :: os ∧ b.engine.sckl = b.peer.sck ∧ b.engine.resets = [] ∧
        b.peer.phase = q.1 ∧ b.peer.sck = q.2 ∧ b.script = List.replicate (k + 1) .quiet ++ [.finish v] :=
  fun q _ => ⟨⟨{ offered 0x4005 0 with sckl := q.2 }, { latched with phase := q.1, sck := q.2 }, [.quiet, .quiet, .finish 7]⟩,
    [], 7, 1, rfl, rfl, rfl, rfl, rfl, rfl, rfl⟩

theorem witness_power_cycle : ∀ f : PdownForm, ∃ (b : Bench) (os : List CmdWord) (n : Nat),
    b.engine.phase = .idle ∧ b.engine.offers = 0x0001 :: 0x0002 :: os ∧ b.engine.sckl = b.peer.sck ∧ b.engine.resets = [] ∧
      ((b.engine.cfg.pdownForm = .highOnly ∧ n = 1) ∨ (b.engine.cfg.pdownForm = .lowThenHigh ∧ n = 2)) ∧
      b.engine.cfg.pdownForm = f ∧ b.script = List.replicate n .quiet ++ [.held] := by
  intro f
  refine ⟨⟨{ cycleOffered f with resets := [] }, latched, List.replicate (match f with | .highOnly => 1 | .lowThenHigh => 2)
    .quiet ++ [.held]⟩, [], _, rfl, rfl, rfl, rfl, ?_, rfl, rfl⟩
  cases f
  · exact .inl ⟨rfl, rfl⟩
  · exact .inr ⟨rfl, rfl⟩

theorem witness_reset_of_a_sleeping_peer :
    (∃ (b : Bench) (rest : List Bool), b.engine.resets = true :: rest ∧ b.peer.sck = 1 ∧ b.script.head? = some .held) ∧
      ∃ (b : Bench) (rest : List Bool), b.engine.resets = true :: rest ∧ b.peer.sck = 1 ∧ b.peer.phase = .asleep ∧
        b.script = [.finish 5] :=
  ⟨⟨⟨{ State.reset with resets := [true] }, { latched with sck := 1 }, [.held]⟩, [], rfl, rfl, rfl⟩,
    ⟨{ State.reset with resets := [true] }, { latched with sck := 1, phase := .asleep }, [.finish 5]⟩, [], rfl, rfl, rfl,
      rfl⟩

theorem witness_reset_in_mid_read :
    ∀ s ∈ [reading .drise 1 0 0 0, reading .dsamp 1 0 0 1, reading .dfall 24 0 0 1, reading .grise 24 0 0 0, reading .gfall 24 0 0 1],
      ∃ (b : Bench) (rest : List Bool), b.engine.resets = true :: rest ∧ b.engine.phase = s.phase ∧ b.script = [] ∧
        b.peer.phase ≠ .asleep ∧ ((b.engine.phase = .drise ∧ b.engine.bitcnt ≠ 0) ∨ b.engine.phase = .dsamp ∨
          b.engine.phase = .dfall ∨ b.engine.phase = .grise ∨ b.engine.phase = .gfall) := by
  intro s hs
  refine ⟨⟨{ s with resets := [true] }, behindRead, []⟩, [], rfl, rfl, rfl, (by decide : behindRead.phase ≠ .asleep), ?_⟩
  fin_cases hs <;> decide

/-- A second instance, on another clock line. -/
def otherLine (s : State) : State := { s with cfg := { Config.standard with dataPin := 2, clockPin := 3 } }

theorem witness_instances :
    ([offered 0x0001 0, otherLine (offered 0x0002 0)].map fun s => s.cfg.clockPin).Nodup ∧
      ∃ es', platformStep [true, false] [offered 0x0001 0, offered 0x0002 0] = .next es' ∧
        es'[1]? = some (offered 0x0002 0) := by
  refine ⟨by decide, _, rfl, rfl⟩

theorem witness_shared_clock : ∃ (mask : List Bool) (es : List State) (s t : State),
    (0 : Nat) ≠ 1 ∧ es[0]? = some s ∧ es[1]? = some t ∧ mask[0]? = some true ∧ mask[1]? = some true ∧
      s.cfg.clockPin = t.cfg.clockPin ∧
      (∃ u ev, step s = .next u ∧ u.trace = s.trace ++ ev ∧ writesOf ev ≠ []) ∧
      (∃ u ev, step t = .next u ∧ u.trace = t.trace ++ ev ∧ writesOf ev ≠ []) :=
  ⟨[true, true], [offered 0x0001 0, offered 0x0002 0], _, _, by decide, rfl, rfl, rfl, rfl, rfl,
    ⟨_, [.c 0x0001, .w 1, .r 0], rfl, rfl, by decide⟩, ⟨_, [.c 0x0002, .w 0, .r 0], rfl, rfl, by decide⟩⟩

/-- One of the two drives the line by its reset. -/
theorem witness_shared_clock_reset : ∃ (mask : List Bool) (es : List State) (s t : State),
    (0 : Nat) ≠ 1 ∧ es[0]? = some s ∧ es[1]? = some t ∧ mask[0]? = some true ∧ mask[1]? = some true ∧
      s.cfg.clockPin = t.cfg.clockPin ∧ resetAsserted s = true ∧
      (∃ u ev, step t = .next u ∧ u.trace = t.trace ++ ev ∧ writesOf ev ≠ []) :=
  ⟨[true, true], [{ State.reset with resets := [true] }, offered 0x0002 0], _, _, by decide, rfl, rfl, rfl, rfl, rfl, rfl,
    _, [.c 0x0002, .w 0, .r 0], rfl, rfl, by decide⟩

/-! ### The peer where the source is silent (log entry 7) -/

/-- A sleeping peer, with a conversion's end in the script: `PUP` wakes it, `PDOWN` leaves it asleep. -/
def sleeping (w : CmdWord) : Bench :=
  ⟨{ offered w 0 with sckl := 1 }, { latched with sck := 1, phase := .asleep }, [.finish 5]⟩

theorem witness_sleep : (sleeping 0x0002).peer.phase = .asleep ∧ (sleeping 0x0002).peer.sck = 1 ∧
    (∃ b', benchStep (sleeping 0x0002) = .next b' ∧ b'.engine.sckl = 0 ∧ b'.peer.phase = .converting ∧
      b'.peer.convMode = .a128) ∧
    ∃ b', benchStep (sleeping 0x0001) = .next b' ∧ b'.engine.sckl = 1 ∧ b'.peer.phase = .asleep :=
  ⟨rfl, rfl, ⟨_, rfl, rfl, rfl, rfl⟩, _, rfl, rfl, rfl⟩

/-- A conversion that ends between two trailing pulses, or while a result is latched, leaves the peer open. -/
theorem test_finish_in_mid_read :
    (peerInput (reading .grise 24 1 0 0) (.finish 5) behindRead).phase = .unspecified false 0 ∧
      (peerInput State.reset (.finish 5) latched).phase = .unspecified false 0 ∧
      (peerInput State.reset (.finish 5) behindRead).phase = .ready 5 := by decide

end Sys2Proof.Tests
end

/-! ## The engine as a labelled transition system

`Transition s ev t`: without reset, the engine goes from `s` to `t` and appends the events `ev`. It refines `Moves` by the
branches inside each rule and writes the whole next state out, so that the rules below read their facts off a constructor. -/

section
namespace Sys2Proof.Machine

/-- One constructor for each branch of a step without reset, with its events and the whole state after it
(10_state.md R32). The reset input of the step is already used up in `s`. -/
inductive Transition (s : State) : List Event → State → Prop where
  /-- `PDOWN` as one write (40_line_control.md R58) -/
  | pdownHigh {w : CmdWord} {os : List CmdWord} (hp : s.phase = .idle) (ho : s.offers = w :: os)
      (hd : decode w = .ok .pdown) (hf : s.cfg.pdownForm = .highOnly) :
      Transition s [.c w, .w 1, .r 0]
        { s with sckl := 1, rsp := 0, phase := .idle, trace := s.trace ++ [.c w, .w 1, .r 0], offers := os }
  /-- the first write of `PDOWN` as two (R58) -/
  | pdownLow {w : CmdWord} {os : List CmdWord} (hp : s.phase = .idle) (ho : s.offers = w :: os)
      (hd : decode w = .ok .pdown) (hf : s.cfg.pdownForm = .lowThenHigh) :
      Transition s [.c w, .w 0]
        { s with sckl := 0, phase := .pdhi, trace := s.trace ++ [.c w, .w 0], offers := os }
  /-- `PUP` (40_line_control.md R59) -/
  | pup {w : CmdWord} {os : List CmdWord} (hp : s.phase = .idle) (ho : s.offers = w :: os) (hd : decode w = .ok .pup) :
      Transition s [.c w, .w 0, .r 0]
        { s with sckl := 0, rsp := 0, phase := .idle, trace := s.trace ++ [.c w, .w 0, .r 0], offers := os }
  /-- `READY` (40_line_control.md R60) -/
  | ready {w : CmdWord} {os : List CmdWord} (hp : s.phase = .idle) (ho : s.offers = w :: os)
      (hd : decode w = .ok .ready) :
      Transition s [.c w, .s (dinNow s), .r (readyResponse (dinNow s))]
        { s with
          rsp := readyResponse (dinNow s), phase := .idle
          trace := s.trace ++ [.c w, .s (dinNow s), .r (readyResponse (dinNow s))]
          offers := os, dinIn := s.dinIn.tail, dinCount := (dinTaken s).dinCount }
  /-- `READ` (41_read.md R63) -/
  | read {w : CmdWord} {os : List CmdWord} (hp : s.phase = .idle) (ho : s.offers = w :: os) (hd : decode w = .ok .read) :
      Transition s [.c w] { s with cur := .read, phase := .wait, trace := s.trace ++ [.c w], offers := os }
  /-- `SETGAIN` with a recognised code (42_gain_select.md R77, R78) -/
  | setgain {w : CmdWord} {os : List CmdWord} {code : BitVec 32} {g : BitVec 2} (hp : s.phase = .idle)
      (ho : s.offers = w :: os) (hd : decode w = .ok (.setgain code)) (hg : gainPulsesOf code = some g) :
      Transition s [.c w, .w 0]
        { s with
          gainp := g, sckl := 0, cur := .setgain, phase := .wait, trace := s.trace ++ [.c w, .w 0], offers := os }
  /-- `SETGAIN` with another code under `PERFORM` (R77) -/
  | setgainOther {w : CmdWord} {os : List CmdWord} {code : BitVec 32} (hp : s.phase = .idle) (ho : s.offers = w :: os)
      (hd : decode w = .ok (.setgain code)) (hg : gainPulsesOf code = none) (hf : s.cfg.setgainTail = .perform) :
      Transition s [.c w, .w 0]
        { s with sckl := 0, cur := .setgain, phase := .wait, trace := s.trace ++ [.c w, .w 0], offers := os }
  /-- `SETGAIN` with another code under `SKIP` (R77) -/
  | setgainSkip {w : CmdWord} {os : List CmdWord} {code : BitVec 32} (hp : s.phase = .idle) (ho : s.offers = w :: os)
      (hd : decode w = .ok (.setgain code)) (hg : gainPulsesOf code = none) (hf : s.cfg.setgainTail = .skip) :
      Transition s [.c w, .r 0] { s with rsp := 0, phase := .idle, trace := s.trace ++ [.c w, .r 0], offers := os }
  /-- an illegal word (60_exceptions.md R83) -/
  | illegal {w : CmdWord} {os : List CmdWord} {e : DecodeError} (hp : s.phase = .idle) (ho : s.offers = w :: os)
      (hd : decode w = .error e) :
      Transition s [.c w, .r 0]
        { s with ill := true, badcmd := w, rsp := 0, phase := .idle, trace := s.trace ++ [.c w, .r 0], offers := os }
  /-- a poll that reads 0 (41_read.md R64) -/
  | pollReady (hp : s.phase = .wait) (h0 : dinNow s = 0) :
      Transition s [.s (dinNow s)]
        { s with
          shift := 0, bitcnt := 0, phase := .drise, trace := s.trace ++ [.s (dinNow s)]
          dinIn := s.dinIn.tail, dinCount := (dinTaken s).dinCount }
  /-- a poll that reads 1 (R64) -/
  | pollBusy (hp : s.phase = .wait) (h0 : dinNow s ≠ 0) :
      Transition s [.s (dinNow s)]
        { s with
          trace := s.trace ++ [.s (dinNow s)], dinIn := s.dinIn.tail, dinCount := (dinTaken s).dinCount }
  /-- the high edge of a data pulse (R65) -/
  | dataRise (hp : s.phase = .drise) :
      Transition s [.w 1] { s with sckl := 1, phase := .dsamp, trace := s.trace ++ [.w 1] }
  /-- the sample of a data bit (R66) -/
  | dataSample (hp : s.phase = .dsamp) :
      Transition s [.s (dinNow s)]
        { s with
          shift := shiftIn s.shift (dinNow s), bitcnt := s.bitcnt + 1, phase := .dfall
          trace := s.trace ++ [.s (dinNow s)], dinIn := s.dinIn.tail, dinCount := (dinTaken s).dinCount }
  /-- the low edge of the last data pulse (R68) -/
  | dataFallLast (hp : s.phase = .dfall) (hb : s.bitcnt = 24) :
      Transition s [.w 0] { s with sckl := 0, pulsecnt := 0, phase := .grise, trace := s.trace ++ [.w 0] }
  /-- the low edge of an earlier data pulse (R68) -/
  | dataFallMore (hp : s.phase = .dfall) (hb : s.bitcnt ≠ 24) :
      Transition s [.w 0] { s with sckl := 0, phase := .drise, trace := s.trace ++ [.w 0] }
  /-- the high edge of a gain pulse (R69) -/
  | gainRise (hp : s.phase = .grise) :
      Transition s [.w 1] { s with sckl := 1, phase := .gfall, trace := s.trace ++ [.w 1] }
  /-- the low edge of the last gain pulse and the end of the read (R70, R72) -/
  | gainFallLast (hp : s.phase = .gfall) (hg : s.pulsecnt + 1 = s.gainp) :
      Transition s [.w 0, .r (finishResponse s)]
        { s with
          sckl := 0, pulsecnt := s.pulsecnt + 1, rsp := finishResponse s, phase := .idle
          trace := s.trace ++ [.w 0, .r (finishResponse s)] }
  /-- the low edge of an earlier gain pulse (R70) -/
  | gainFallMore (hp : s.phase = .gfall) (hg : s.pulsecnt + 1 ≠ s.gainp) :
      Transition s [.w 0]
        { s with sckl := 0, pulsecnt := s.pulsecnt + 1, phase := .grise, trace := s.trace ++ [.w 0] }
  /-- the second write of `PDOWN` as two (40_line_control.md R58) -/
  | pdhi (hp : s.phase = .pdhi) :
      Transition s [.w 1, .r 0]
        { s with sckl := 1, rsp := 0, phase := .idle, trace := s.trace ++ [.w 1, .r 0] }

variable {s t : State} {ev : List Event}

/-! ### The transitions are the engine's steps -/

theorem pinSample_eq (s : State) :
    pinSample s =
      { s with
        trace := s.trace ++ [.s (dinNow s)], dinIn := s.dinIn.tail, dinCount := (dinTaken s).dinCount } := rfl

theorem gainPulseDone_eq (s : State) :
    gainPulseDone s = { s with sckl := 0, pulsecnt := s.pulsecnt + 1, trace := s.trace ++ [.w 0] } := rfl

/-- The last gain pulse and the end of the read, in one (41_read.md R70, R72). -/
theorem stepGfall_last_eq (h : s.pulsecnt + 1 = s.gainp) :
    stepGfall s =
      { s with
        sckl := 0, pulsecnt := s.pulsecnt + 1, rsp := finishResponse s, phase := .idle
        trace := s.trace ++ [.w 0, .r (finishResponse s)] } := by
  have hf : finishResponse (gainPulseDone s) = finishResponse s := rfl
  rw [stepGfall_last h, finish, hf]
  simp [respond_eq, gainPulseDone_eq]

/-- Every transition is the step of the engine: one branch of the model's rule each. -/
theorem Transition.engineStep_eq (h : Transition s ev t) : engineStep s = .next t := by
  cases h with
  | pdownHigh hp ho hd hf =>
    simp [engineStep_idle hp ho, dispatchWord_ok hd, exec, execPdown, pdownState, hf, respond_eq, pinWrite_eq, takeOffer_eq]
  | pdownLow hp ho hd hf =>
    simp [engineStep_idle hp ho, dispatchWord_ok hd, exec, execPdown, pdownState, hf, pinWrite_eq, takeOffer_eq]
  | pup hp ho hd =>
    simp [engineStep_idle hp ho, dispatchWord_ok hd, exec, execPup, respond_eq, pinWrite_eq, takeOffer_eq]
  | ready hp ho hd =>
    simp [engineStep_idle hp ho, dispatchWord_ok hd, exec, execReady, respond_eq, pinSample_eq]
    rfl
  | read hp ho hd => simp [engineStep_idle hp ho, dispatchWord_ok hd, exec, execRead, takeOffer_eq]
  | setgain hp ho hd hg =>
    simp [engineStep_idle hp ho, dispatchWord_ok hd, exec, execSetgain, setgainState, hg, setgainTail, pinWrite_eq,
      takeOffer_eq]
  | setgainOther hp ho hd hg hf =>
    simp [engineStep_idle hp ho, dispatchWord_ok hd, exec, execSetgain, setgainState, hg, hf, setgainTail, pinWrite_eq,
      takeOffer_eq]
  | setgainSkip hp ho hd hg hf =>
    simp [engineStep_idle hp ho, dispatchWord_ok hd, exec, execSetgain, setgainState, hg, hf, respond_eq, takeOffer_eq]
  | illegal hp ho hd =>
    simp [engineStep_idle hp ho, dispatchWord_error hd, raiseIllegalCommand, respond_eq, takeOffer_eq]
  | pollReady hp h0 => simp [engineStep, hp, stepWait_ready h0, pinSample_eq]
  | pollBusy hp h0 => simp [engineStep, hp, stepWait_busy h0, pinSample_eq]
  | dataRise hp => simp [engineStep, hp, stepDrise, pinWrite_eq]
  | dataSample hp => simp [engineStep, hp, stepDsamp, pinSample_eq]
  | dataFallLast hp hb => simp [engineStep, hp, stepDfall_last hb, pinWrite_eq]
  | dataFallMore hp hb => simp [engineStep, hp, stepDfall_more hb, pinWrite_eq]
  | gainRise hp => simp [engineStep, hp, stepGrise, pinWrite_eq]
  | gainFallLast hp hg => simp [engineStep, hp, stepGfall_last_eq hg]
  | gainFallMore hp hg => simp [engineStep, hp, stepGfall_more hg, gainPulseDone_eq]
  | pdhi hp => simp [engineStep, hp, stepPdhi, respond_eq, pinWrite_eq]

/-- Whatever word is offered, an idle engine has a transition. -/
theorem Transition.exists_of_offer {w : CmdWord} {os : List CmdWord} (hp : s.phase = .idle) (ho : s.offers = w :: os) :
    ∃ ev t, Transition s ev t := by
  rcases hd : decode w with e | i
  · exact ⟨_, _, .illegal hp ho hd⟩
  cases i with
  | pdown =>
    cases hf : s.cfg.pdownForm
    · exact ⟨_, _, .pdownHigh hp ho hd hf⟩
    · exact ⟨_, _, .pdownLow hp ho hd hf⟩
  | pup => exact ⟨_, _, .pup hp ho hd⟩
  | ready => exact ⟨_, _, .ready hp ho hd⟩
  | read => exact ⟨_, _, .read hp ho hd⟩
  | setgain code =>
    rcases hg : gainPulsesOf code with _ | g
    · cases hf : s.cfg.setgainTail
      · exact ⟨_, _, .setgainOther hp ho hd hg hf⟩
      · exact ⟨_, _, .setgainSkip hp ho hd hg hf⟩
    · exact ⟨_, _, .setgain hp ho hd hg⟩

/-- A busy engine has a transition. -/
theorem Transition.exists_of_busy (hp : s.phase ≠ .idle) : ∃ ev t, Transition s ev t := by
  cases h : s.phase with
  | idle => exact absurd h hp
  | wait =>
    by_cases h0 : dinNow s = 0
    · exact ⟨_, _, .pollReady h h0⟩
    · exact ⟨_, _, .pollBusy h h0⟩
  | drise => exact ⟨_, _, .dataRise h⟩
  | dsamp => exact ⟨_, _, .dataSample h⟩
  | dfall =>
    by_cases hb : s.bitcnt = 24
    · exact ⟨_, _, .dataFallLast h hb⟩
    · exact ⟨_, _, .dataFallMore h hb⟩
  | grise => exact ⟨_, _, .gainRise h⟩
  | gfall =>
    by_cases hg : s.pulsecnt + 1 = s.gainp
    · exact ⟨_, _, .gainFallLast h hg⟩
    · exact ⟨_, _, .gainFallMore h hg⟩
  | pdhi => exact ⟨_, _, .pdhi h⟩

theorem engineStep_refused (hp : s.phase = .idle) (ho : s.offers = []) :
    engineStep s = .refused .noCommandOffered := by
  simp [engineStep, acceptOffer, hp, ho]

/-- The engine has a transition unless it is idle with nothing offered (10_state.md R32). -/
theorem Transition.exists_or_refused (s : State) :
    (∃ ev t, Transition s ev t) ∨ (s.phase = .idle ∧ s.offers = []) := by
  by_cases hp : s.phase = .idle
  · cases ho : s.offers with
    | nil => exact .inr ⟨hp, rfl⟩
    | cons w os => exact .inl (Transition.exists_of_offer hp ho)
  · exact .inl (Transition.exists_of_busy hp)

/-- The transitions are exactly the steps that answer a next state. -/
theorem engineStep_eq_next_iff : engineStep s = .next t ↔ ∃ ev, Transition s ev t := by
  refine ⟨fun h => ?_, fun ⟨ev, h⟩ => h.engineStep_eq⟩
  obtain ⟨ev, u, hu⟩ | ⟨hp, ho⟩ := Transition.exists_or_refused s
  · rw [hu.engineStep_eq] at h
    cases h
    exact ⟨ev, hu⟩
  · rw [engineStep_refused hp ho] at h
    cases h

theorem step_eq_next_iff (hr : resetAsserted s = false) :
    step s = .next t ↔ ∃ ev, Transition (resetTaken s) ev t := by
  rw [step_noReset hr, engineStep_eq_next_iff]

/-- A step that answers a next state is a reset or a transition. -/
theorem step_eq_next_cases (h : step s = .next t) :
    t = engineReset (resetTaken s) ∨ ∃ ev, Transition (resetTaken s) ev t := by
  cases hr : resetAsserted s with
  | true => rw [step_reset hr] at h; cases h; exact .inl rfl
  | false => exact .inr ((step_eq_next_iff hr).mp h)

end Sys2Proof.Machine
end

/-! ## What a transition does to each register, in terms of its events -/

section
namespace Sys2Proof.Machine

variable {s t : State} {ev : List Event}

theorem Transition.trace_eq (h : Transition s ev t) : t.trace = s.trace ++ ev := by cases h <;> rfl

theorem Transition.resets_eq (h : Transition s ev t) : t.resets = s.resets := by cases h <;> rfl

theorem Transition.sckl_eq (h : Transition s ev t) : t.sckl = levelAfter s.sckl ev := by cases h <;> rfl

theorem Transition.rsp_eq (h : Transition s ev t) : t.rsp = (responsesOf ev).getLast?.getD s.rsp := by cases h <;> rfl

theorem Transition.pinEvents_le_one (h : Transition s ev t) : (ev.filter isPinEvent).length ≤ 1 := by
  cases h <;> exact Nat.le_of_ble_eq_true rfl

/-- A busy engine accepts nothing, an idle one the first offered word (10_state.md R24). -/
theorem Transition.acceptedOf_cases (h : Transition s ev t) :
    (s.phase ≠ .idle ∧ acceptedOf ev = []) ∨
      (s.phase = .idle ∧ ∃ w os, s.offers = w :: os ∧ acceptedOf ev = [w]) := by
  cases h <;> simp [acceptedOf, *]

theorem Transition.acceptedOf_busy (h : Transition s ev t) (hp : s.phase ≠ .idle) : acceptedOf ev = [] := by
  obtain ⟨-, ha⟩ | ⟨hi, -⟩ := h.acceptedOf_cases
  · exact ha
  · exact absurd hi hp

/-- The accepted words that are not answered yet: none in `IDLE`, else one. -/
def unanswered (s : State) : Nat := if s.phase = .idle then 0 else 1

/-- A step keeps the account of the accepted words and the responses (10_state.md R24). -/
theorem Transition.balance (h : Transition s ev t) :
    (acceptedOf ev).length + unanswered s = (responsesOf ev).length + unanswered t := by
  cases h <;> simp [acceptedOf, responsesOf, unanswered, *]

/-- The step that brings the engine to `IDLE` ends with the response. -/
theorem Transition.getLast?_of_idle (h : Transition s ev t) (ht : t.phase = .idle) :
    ev.getLast? = some (.r t.rsp) := by
  cases h <;> simp_all

theorem Transition.ill_eq (h : Transition s ev t) :
    t.ill = (s.ill || (acceptedOf ev).any isIllegalWord) := by
  cases h <;> simp [acceptedOf, isIllegalWord, *]

theorem Transition.badcmd_eq (h : Transition s ev t) :
    t.badcmd = ((acceptedOf ev).filter isIllegalWord).getLast?.getD s.badcmd := by
  cases h <;> simp [acceptedOf, isIllegalWord, *]

theorem Transition.gainp_eq (h : Transition s ev t) : t.gainp = gainpAfter s.gainp (acceptedOf ev) := by
  cases h <;> simp [acceptedOf, gainpAfter, *]

end Sys2Proof.Machine
end

/-! ## The invariants (10_state.md R29) -/

section
namespace Sys2Proof.Machine

variable {s t : State} {ev : List Event}

/-- The part of the invariants that speaks of no phase: R17, R26 and R29 item 1. -/
structure Ranges (s : State) : Prop where
  gainpLegal : s.gainp = 1 ∨ s.gainp = 2 ∨ s.gainp = 3
  bitcntRange : s.bitcnt.toNat ≤ 24
  sckOutput : s.sckDir = .output
  dinInput : s.dinDir = .input

/-- The part of the invariants that the current phase asks for: R25 and R29 items 3 to 5. -/
def PhaseInv (s : State) : Prop :=
  match s.phase with
  | .idle => True
  | .wait => True
  | .drise => s.bitcnt.toNat ≤ 23 ∧ (1 ≤ s.bitcnt.toNat → s.sckl = 0)
  | .dsamp => s.bitcnt.toNat ≤ 23 ∧ s.sckl = 1
  | .dfall => 1 ≤ s.bitcnt.toNat ∧ s.sckl = 1
  | .grise => (s.bitcnt = 24 ∧ s.pulsecnt.toNat < s.gainp.toNat) ∧ s.sckl = 0
  | .gfall => (s.bitcnt = 24 ∧ s.pulsecnt.toNat < s.gainp.toNat) ∧ s.sckl = 1
  | .pdhi => s.cfg.pdownForm = .lowThenHigh ∧ s.sckl = 0

theorem Inv.ranges (h : Inv s) : Ranges s := ⟨h.gainpLegal, h.bitcntRange, h.sckOutput, h.dinInput⟩

theorem Inv.phaseInv (h : Inv s) : PhaseInv s := by
  unfold PhaseInv
  split
  · trivial
  · trivial
  · next hp => exact ⟨h.dataPhase (.inl hp), h.lowDrise hp⟩
  · next hp => exact ⟨h.dataPhase (.inr hp), h.highPhase (.inl hp)⟩
  · next hp => exact ⟨(h.dfallPhase hp).1, h.highPhase (.inr (.inl hp))⟩
  · next hp => exact ⟨h.gainPhase (.inl hp), h.lowPhase (.inl hp)⟩
  · next hp => exact ⟨h.gainPhase (.inr hp), h.highPhase (.inr (.inr hp))⟩
  · next hp => exact ⟨h.pdhiForm hp, h.lowPhase (.inr hp)⟩

/-- The invariants are the ranges and what the current phase asks for. -/
theorem inv_iff : Inv s ↔ Ranges s ∧ PhaseInv s := by
  refine ⟨fun h => ⟨h.ranges, h.phaseInv⟩, fun ⟨hr, hph⟩ => ?_⟩
  exact
    { gainpLegal := hr.gainpLegal
      idleNotBusy := fun hp => by simp [State.busy, hp]
      dataPhase := by rintro (hp | hp) <;> simp only [PhaseInv, hp] at hph <;> exact hph.1
      dfallPhase := fun hp => by simp only [PhaseInv, hp] at hph; exact ⟨hph.1, hr.bitcntRange⟩
      gainPhase := by rintro (hp | hp) <;> simp only [PhaseInv, hp] at hph <;> exact hph.1
      highPhase := by rintro (hp | hp | hp) <;> simp only [PhaseInv, hp] at hph <;> exact hph.2
      lowPhase := by rintro (hp | hp) <;> simp only [PhaseInv, hp] at hph <;> exact hph.2
      lowDrise := fun hp => by simp only [PhaseInv, hp] at hph; exact hph.2
      bitcntRange := hr.bitcntRange
      pdhiForm := fun hp => by simp only [PhaseInv, hp] at hph; exact hph.1
      sckOutput := hr.sckOutput
      dinInput := hr.dinInput }

theorem Ranges.bitcnt_succ_toNat (h : Ranges s) : (s.bitcnt + 1).toNat = s.bitcnt.toNat + 1 := by
  have := h.bitcntRange
  simp
  omega

/-- With the pulse count below `GAINP`, the next one does not wrap. -/
theorem pulsecnt_succ_toNat {p g : BitVec 2} (h : p.toNat < g.toNat) : (p + 1).toNat = p.toNat + 1 := by
  have := g.isLt
  simp
  omega

theorem gainPulsesOf_legal {code : BitVec 32} {g : BitVec 2} (h : gainPulsesOf code = some g) :
    g = 1 ∨ g = 2 ∨ g = 3 := by
  obtain ⟨-, hc⟩ | ⟨-, hc⟩ | ⟨-, hc⟩ | ⟨-, -, -, hc⟩ := gainPulsesOf_cases code <;> simp_all

theorem Ranges.gainp_pos (h : Ranges s) : 0 < s.gainp.toNat := by
  obtain hg | hg | hg := h.gainpLegal <;> simp [hg]

theorem Transition.keeps_ranges (h : Transition s ev t) (hr : Ranges s) (hph : PhaseInv s) : Ranges t := by
  have ⟨hg, hb, hs, hd⟩ := hr
  cases h with
  | setgain _ _ _ hc => exact ⟨gainPulsesOf_legal hc, hb, hs, hd⟩
  | pollReady => exact ⟨hg, Nat.zero_le _, hs, hd⟩
  | dataSample hp =>
    simp only [PhaseInv, hp] at hph
    exact ⟨hg, by have := hr.bitcnt_succ_toNat; simp only; omega, hs, hd⟩
  | _ => exact ⟨hg, hb, hs, hd⟩

theorem Transition.keeps_phaseInv (h : Transition s ev t) (hr : Ranges s) (hph : PhaseInv s) : PhaseInv t := by
  cases h with
  | pdownHigh | pup | ready | read | setgain | setgainOther | setgainSkip | illegal | gainFallLast | pdhi => trivial
  | pollBusy hp => simp [PhaseInv, hp]
  | pdownLow _ _ _ hf => exact ⟨hf, rfl⟩
  | pollReady => exact ⟨Nat.zero_le _, fun h => absurd h (Nat.not_succ_le_zero 0)⟩
  | dataRise hp =>
    simp only [PhaseInv, hp] at hph
    exact ⟨hph.1, rfl⟩
  | dataSample hp =>
    simp only [PhaseInv, hp] at hph
    exact ⟨by have := hr.bitcnt_succ_toNat; simp only; omega, hph.2⟩
  | dataFallLast hp hb => exact ⟨⟨hb, hr.gainp_pos⟩, rfl⟩
  | dataFallMore hp hb =>
    have hlt : s.bitcnt.toNat ≠ 24 := fun h => hb (BitVec.eq_of_toNat_eq h)
    exact ⟨by have := hr.bitcntRange; simp only; omega, fun _ => rfl⟩
  | gainRise hp =>
    simp only [PhaseInv, hp] at hph
    exact ⟨hph.1, rfl⟩
  | gainFallMore hp hg =>
    simp only [PhaseInv, hp] at hph
    obtain ⟨⟨hb, hlt⟩, -⟩ := hph
    have hne : (s.pulsecnt + 1).toNat ≠ s.gainp.toNat := fun h => hg (BitVec.eq_of_toNat_eq h)
    have hs := pulsecnt_succ_toNat hlt
    exact ⟨⟨hb, by simp only; omega⟩, rfl⟩

theorem Transition.keeps_inv (h : Transition s ev t) (hi : Inv s) : Inv t :=
  inv_iff.mpr ⟨h.keeps_ranges hi.ranges hi.phaseInv, h.keeps_phaseInv hi.ranges hi.phaseInv⟩

/-- After a reset the engine is idle, so only the ranges are asked for. -/
theorem inv_engineReset (s : State) : Inv (engineReset s) :=
  inv_iff.mpr ⟨⟨.inl rfl, Nat.zero_le _, rfl, rfl⟩, trivial⟩

theorem inv_resetTaken (h : Inv s) : Inv (resetTaken s) :=
  inv_iff.mpr ⟨⟨h.gainpLegal, h.bitcntRange, h.sckOutput, h.dinInput⟩, h.phaseInv⟩

/-- Settles O30: the reset state is what a reset makes of it. -/
theorem invariantsHoldAtReset : Obligations.InvariantsHoldAtReset :=
  inv_engineReset State.reset

/-- Settles O31: a step is a reset, which gives the reset values, or a transition, which keeps the ranges and brings about
what the next phase asks for. -/
theorem stepKeepsTheInvariants : Obligations.StepKeepsTheInvariants := by
  intro s t hi h
  obtain rfl | ⟨ev, h⟩ := step_eq_next_cases h
  · exact inv_engineReset _
  · exact h.keeps_inv (inv_resetTaken hi)

end Sys2Proof.Machine
end

/-! ## The registers and the event history (10_state.md R16, R19, R22, R24, R27, R28) -/

section
namespace Sys2Proof.Machine

variable {s t : State} {ev : List Event}

theorem traceInv_engineReset (s : State) : TraceInv (engineReset s) := ⟨rfl, rfl, rfl, rfl, rfl, rfl⟩

theorem traceInv_resetTaken (h : TraceInv s) : TraceInv (resetTaken s) :=
  ⟨h.level, h.response, h.balance, h.illegal, h.badWord, h.gain⟩

/-- Each register is a fold of the history, and a transition goes on with the same fold over its own events. -/
theorem Transition.keeps_traceInv (h : Transition s ev t) (hi : TraceInv s) : TraceInv t where
  level := by rw [h.trace_eq, levelAfter_append, ← hi.level, h.sckl_eq]
  response := by rw [h.trace_eq, responsesOf_append, List.getLast?_append, Option.getD_or, ← hi.response, h.rsp_eq]
  balance := by
    have hs : (acceptedOf s.trace).length = (responsesOf s.trace).length + unanswered s := hi.balance
    have hev := h.balance
    change _ = _ + unanswered t
    simp only [h.trace_eq, acceptedOf_append, responsesOf_append, List.length_append]
    omega
  illegal := by rw [h.trace_eq, acceptedOf_append, List.any_append, ← hi.illegal, h.ill_eq]
  badWord := by
    rw [h.trace_eq, acceptedOf_append, List.filter_append, List.getLast?_append, Option.getD_or, ← hi.badWord, h.badcmd_eq]
  gain := by rw [h.trace_eq, acceptedOf_append, gainpAfter_append, ← hi.gain, h.gainp_eq]

/-- Settles O35: every register of the reset state is the value of its fold over no events. -/
theorem historyAgreesAtReset : Obligations.HistoryAgreesAtReset := traceInv_engineReset State.reset

/-- Settles O36: a reset empties the history and sets the registers to their first values; a transition goes on with the
folds. -/
theorem stepKeepsTheHistoryAgreement : Obligations.StepKeepsTheHistoryAgreement := by
  intro s t hi h
  obtain rfl | ⟨ev, h⟩ := step_eq_next_cases h
  · exact traceInv_engineReset _
  · exact h.keeps_traceInv (traceInv_resetTaken hi)

/-! ### What the accepted words do to `GAINP`, `ILL` and `BADCMD` -/

/-- One word changes `GAINP` only where it is `SETGAIN` with a recognised code (42_gain_select.md R78). -/
theorem gainpAfter_singleton_cases (g : BitVec 2) (w : CmdWord) :
    gainpAfter g [w] = g ∨
      ∃ code, decode w = .ok (.setgain code) ∧ gainPulsesOf code = some (gainpAfter g [w]) := by
  rcases hd : decode w with e | i
  · exact .inl (by simp [gainpAfter, hd])
  cases i with
  | setgain code =>
    cases hg : gainPulsesOf code with
    | none => exact .inl (by simp [gainpAfter, hd, hg])
    | some k => exact .inr ⟨code, rfl, by simp [gainpAfter, hd, hg]⟩
  | _ => exact .inl (by simp [gainpAfter, hd])

theorem Transition.gainp_change (h : Transition s ev t) (hne : t.gainp ≠ s.gainp) :
    s.phase = .idle ∧ ∃ w os code, s.offers = w :: os ∧ decode w = .ok (.setgain code) ∧
      ((code = 128 ∧ t.gainp = 1) ∨ (code = 64 ∧ t.gainp = 3) ∨ (code = 32 ∧ t.gainp = 2)) := by
  have hg := h.gainp_eq
  obtain ⟨-, ha⟩ | ⟨hp, w, os, ho, ha⟩ := h.acceptedOf_cases
  · rw [ha] at hg
    exact absurd hg hne
  rw [ha] at hg
  obtain hw | ⟨code, hd, hc⟩ := gainpAfter_singleton_cases s.gainp w
  · exact absurd (hg.trans hw) hne
  rw [← hg] at hc
  refine ⟨hp, w, os, code, ho, hd, ?_⟩
  obtain ⟨h1, hk⟩ | ⟨h1, hk⟩ | ⟨h1, hk⟩ | ⟨-, -, -, hk⟩ := gainPulsesOf_cases code <;> simp_all

/-- Settles O37: `GAINP` after the step is what the accepted word makes of it, if one is accepted. -/
theorem gainpChangesOnlyBySetgain : Obligations.GainpChangesOnlyBySetgain := by
  intro s t h hr hne
  obtain ⟨ev, h⟩ := (step_eq_next_iff hr).mp h
  exact h.gainp_change hne

theorem Transition.ill_badcmd_cases (h : Transition s ev t) :
    (t.ill = s.ill ∧ t.badcmd = s.badcmd ∧
      ¬(s.phase = .idle ∧ ∃ w os e, s.offers = w :: os ∧ decode w = .error e)) ∨
    (s.phase = .idle ∧ ∃ w os e, s.offers = w :: os ∧ decode w = .error e ∧ t.ill = true ∧ t.badcmd = w) := by
  have hill := h.ill_eq
  have hbad := h.badcmd_eq
  obtain ⟨hp, ha⟩ | ⟨hp, w, os, ho, ha⟩ := h.acceptedOf_cases
  · rw [ha] at hill hbad
    exact .inl ⟨by simpa using hill, hbad, fun hi => hp hi.1⟩
  · rw [ha] at hill hbad
    cases hd : decode w with
    | error e => exact .inr ⟨hp, w, os, e, ho, hd, by simp_all [isIllegalWord], by simp_all [isIllegalWord]⟩
    | ok i =>
      refine .inl ⟨by simp_all [isIllegalWord], by simp_all [isIllegalWord], ?_⟩
      rintro ⟨-, w', os', e, ho', he⟩
      simp_all

/-- Settles O38: `ILL` and `BADCMD` after the step are what the accepted word makes of them, if one is accepted. -/
theorem illIsStickyAndBadcmdTheLastWord : Obligations.IllIsStickyAndBadcmdTheLastWord := by
  intro s t h hr
  obtain ⟨ev, h⟩ := (step_eq_next_iff hr).mp h
  exact h.ill_badcmd_cases

end Sys2Proof.Machine
end

/-! ## Whole-machine rules: acceptance, pin events, independence (10_state.md R16, R21, R24, R27, R32) -/

section
namespace Sys2Proof.Machine

variable {s t : State} {ev : List Event}

/-- Settles O1: the table is read off the state. -/
theorem resetStateHoldsTheTable : Obligations.ResetStateHoldsTheTable :=
  ⟨rfl, rfl, rfl, rfl, rfl, rfl, rfl, rfl, rfl, rfl, rfl, rfl, rfl, rfl, rfl⟩

/-- Settles O10, by the equations of the acceptance step and of the dispatch. -/
theorem stepRunsTheDecodedCommand : Obligations.StepRunsTheDecodedCommand := by
  intro s w os i hp ho hr hd
  rw [step_accept hp ho hr, dispatchWord_ok hd]
  rfl

/-- Settles O12: a reset is a step, and without one the engine has a transition or is refused. -/
theorem stepExistsUnlessNothingIsOffered : Obligations.StepExistsUnlessNothingIsOffered := by
  intro s
  have refused (hr : resetAsserted s = false) (hp : s.phase = .idle) (ho : s.offers = []) :
      step s = .refused .noCommandOffered := by
    rw [step_noReset hr]
    exact engineStep_refused hp ho
  refine ⟨⟨fun ⟨t, h⟩ => ?_, fun h => ?_⟩, refused⟩
  · by_contra hcon
    simp only [not_or, not_not, Bool.not_eq_true] at hcon
    obtain ⟨hr, hp, ho⟩ := hcon
    rw [refused hr hp ho] at h
    cases h
  · cases hr : resetAsserted s with
    | true => exact ⟨_, step_reset hr⟩
    | false =>
      obtain ⟨ev, t, ht⟩ | ⟨hp, ho⟩ := Transition.exists_or_refused (resetTaken s)
      · exact ⟨t, (step_eq_next_iff hr).mpr ⟨ev, ht⟩⟩
      · simp_all

/-! ### Pin events -/

/-- A sample uses up a fixed level or draws a free one: the `DIN` inputs do change. -/
theorem dinTaken_changes (s : State) : ¬(s.dinIn.tail = s.dinIn ∧ (dinTaken s).dinCount = s.dinCount) := by
  cases h : s.dinIn with
  | nil => simp [dinTaken_dinCount_nil s h]
  | cons d ds => simp

/-- The transitions that sample are those that change the `DIN` inputs. -/
theorem Transition.samplesOf_eq_nil_iff (h : Transition s ev t) :
    samplesOf ev = [] ↔ t.dinIn = s.dinIn ∧ t.dinCount = s.dinCount := by
  cases h with
  | ready | pollReady | pollBusy | dataSample =>
    exact iff_of_false (List.cons_ne_nil _ _) (dinTaken_changes s)
  | _ => exact iff_of_true rfl ⟨rfl, rfl⟩

/-- Settles O40, by the events of the transition. -/
theorem onePinEventAStep : Obligations.OnePinEventAStep := by
  intro s t h hr
  obtain ⟨ev, h⟩ := (step_eq_next_iff hr).mp h
  exact ⟨ev, h.trace_eq, h.pinEvents_le_one, h.samplesOf_eq_nil_iff⟩

/-- Settles O41, by the events of the transition. -/
theorem clockLevelFollowsTheWrites : Obligations.ClockLevelFollowsTheWrites := by
  refine ⟨fun s t h hr => ?_, rfl⟩
  obtain ⟨ev, h⟩ := (step_eq_next_iff hr).mp h
  exact ⟨ev, h.trace_eq, h.sckl_eq⟩

/-! ### Independence: with other values of a field no step reads, each transition is the same branch -/

/-- No transition reads the observation registers. What it writes to each is the same whatever they hold. -/
theorem Transition.with_observations (h : Transition s ev t) :
    ∃ (ill : Option Bool) (bad : Option CmdWord) (rsp : Option RspWord),
      ∀ (b : Bool) (c : CmdWord) (r : RspWord) (tr : List Event),
        Transition { s with ill := b, badcmd := c, rsp := r, trace := tr } ev
          { t with ill := ill.getD b, badcmd := bad.getD c, rsp := rsp.getD r, trace := tr ++ ev } := by
  cases h with
  | pdownHigh hp ho hd hf => exact ⟨none, none, some 0, fun _ _ _ _ => .pdownHigh hp ho hd hf⟩
  | pdownLow hp ho hd hf => exact ⟨none, none, none, fun _ _ _ _ => .pdownLow hp ho hd hf⟩
  | pup hp ho hd => exact ⟨none, none, some 0, fun _ _ _ _ => .pup hp ho hd⟩
  | ready hp ho hd => exact ⟨none, none, some (readyResponse (dinNow s)), fun _ _ _ _ => .ready hp ho hd⟩
  | read hp ho hd => exact ⟨none, none, none, fun _ _ _ _ => .read hp ho hd⟩
  | setgain hp ho hd hg => exact ⟨none, none, none, fun _ _ _ _ => .setgain hp ho hd hg⟩
  | setgainOther hp ho hd hg hf => exact ⟨none, none, none, fun _ _ _ _ => .setgainOther hp ho hd hg hf⟩
  | setgainSkip hp ho hd hg hf => exact ⟨none, none, some 0, fun _ _ _ _ => .setgainSkip hp ho hd hg hf⟩
  | illegal hp ho hd => exact ⟨some true, some _, some 0, fun _ _ _ _ => .illegal hp ho hd⟩
  | pollReady hp h0 => exact ⟨none, none, none, fun _ _ _ _ => .pollReady hp h0⟩
  | pollBusy hp h0 => exact ⟨none, none, none, fun _ _ _ _ => .pollBusy hp h0⟩
  | dataRise hp => exact ⟨none, none, none, fun _ _ _ _ => .dataRise hp⟩
  | dataSample hp => exact ⟨none, none, none, fun _ _ _ _ => .dataSample hp⟩
  | dataFallLast hp hb => exact ⟨none, none, none, fun _ _ _ _ => .dataFallLast hp hb⟩
  | dataFallMore hp hb => exact ⟨none, none, none, fun _ _ _ _ => .dataFallMore hp hb⟩
  | gainRise hp => exact ⟨none, none, none, fun _ _ _ _ => .gainRise hp⟩
  | gainFallLast hp hg => exact ⟨none, none, some (finishResponse s), fun _ _ _ _ => .gainFallLast hp hg⟩
  | gainFallMore hp hg => exact ⟨none, none, none, fun _ _ _ _ => .gainFallMore hp hg⟩
  | pdhi hp => exact ⟨none, none, some 0, fun _ _ _ _ => .pdhi hp⟩

/-- A busy engine's transition is the same with any other offers, and leaves them. -/
theorem Transition.with_offers (h : Transition s ev t) (hb : s.phase ≠ .idle) (os : List CmdWord) :
    Transition { s with offers := os } ev { t with offers := os } := by
  cases h with
  | pdownHigh hp | pdownLow hp | pup hp | ready hp | read hp | setgain hp | setgainOther hp | setgainSkip hp
  | illegal hp => exact absurd hp hb
  | pollReady hp h0 => exact .pollReady hp h0
  | pollBusy hp h0 => exact .pollBusy hp h0
  | dataRise hp => exact .dataRise hp
  | dataSample hp => exact .dataSample hp
  | dataFallLast hp hb => exact .dataFallLast hp hb
  | dataFallMore hp hb => exact .dataFallMore hp hb
  | gainRise hp => exact .gainRise hp
  | gainFallLast hp hg => exact .gainFallLast hp hg
  | gainFallMore hp hg => exact .gainFallMore hp hg
  | pdhi hp => exact .pdhi hp

theorem Transition.offers_eq_of_busy (h : Transition s ev t) (hb : s.phase ≠ .idle) : t.offers = s.offers := by
  cases h <;> simp_all

/-- A transition without a sample is the same with any other `DIN` inputs. -/
theorem Transition.with_din (h : Transition s ev t) (hs : samplesOf ev = []) (ds : List Level) (n : Nat) :
    Transition { s with dinIn := ds, dinCount := n } ev { t with dinIn := ds, dinCount := n } := by
  cases h with
  | ready | pollReady | pollBusy | dataSample => exact absurd hs (List.cons_ne_nil _ _)
  | pdownHigh hp ho hd hf => exact .pdownHigh hp ho hd hf
  | pdownLow hp ho hd hf => exact .pdownLow hp ho hd hf
  | pup hp ho hd => exact .pup hp ho hd
  | read hp ho hd => exact .read hp ho hd
  | setgain hp ho hd hg => exact .setgain hp ho hd hg
  | setgainOther hp ho hd hg hf => exact .setgainOther hp ho hd hg hf
  | setgainSkip hp ho hd hg hf => exact .setgainSkip hp ho hd hg hf
  | illegal hp ho hd => exact .illegal hp ho hd
  | dataRise hp => exact .dataRise hp
  | dataFallLast hp hb => exact .dataFallLast hp hb
  | dataFallMore hp hb => exact .dataFallMore hp hb
  | gainRise hp => exact .gainRise hp
  | gainFallLast hp hg => exact .gainFallLast hp hg
  | gainFallMore hp hg => exact .gainFallMore hp hg
  | pdhi hp => exact .pdhi hp

/-- Only `WAIT`, `DSAMP` and the acceptance of `READY` sample (10_state.md R32). -/
theorem Transition.samplesOf_eq_nil (h : Transition s ev t) (hw : s.phase ≠ .wait) (hd : s.phase ≠ .dsamp)
    (hi : s.phase = .idle → ∀ w os, s.offers = w :: os → decode w ≠ .ok .ready) : samplesOf ev = [] := by
  cases h with
  | ready hp ho hr => exact absurd hr (hi hp _ _ ho)
  | pollReady hp | pollBusy hp => exact absurd hp hw
  | dataSample hp => exact absurd hp hd
  | _ => rfl

/-- Settles O39, by the transition taken with the other values. -/
theorem observationRegistersAreReadByNoStep : Obligations.ObservationRegistersAreReadByNoStep := by
  intro s t h hr
  obtain ⟨ev, h⟩ := (step_eq_next_iff hr).mp h
  obtain ⟨ill, bad, rsp, hobs⟩ := h.with_observations
  exact ⟨ill, bad, rsp, ev, fun b c r tr => (step_eq_next_iff (by exact hr)).mpr ⟨ev, hobs b c r tr⟩⟩

/-- Settles O42: a reset keeps the offers, and so does a busy engine's transition. -/
theorem busyEngineHoldsTheOffers : Obligations.BusyEngineHoldsTheOffers := by
  intro s hb
  cases hr : resetAsserted s with
  | true => exact ⟨_, step_reset hr, rfl, fun os => step_reset hr⟩
  | false =>
    obtain ⟨ev, t, h⟩ := Transition.exists_of_busy (s := resetTaken s) hb
    exact ⟨t, (step_eq_next_iff hr).mpr ⟨ev, h⟩, h.offers_eq_of_busy hb,
      fun os => (step_eq_next_iff (by exact hr)).mpr ⟨ev, h.with_offers hb os⟩⟩

/-- Settles O43: the transition has no sample, so it leaves the `DIN` inputs and is the same with any others. -/
theorem onlySamplingStepsReadDin : Obligations.OnlySamplingStepsReadDin := by
  intro s t ds n h hr hw hd hi
  obtain ⟨ev, h⟩ := (step_eq_next_iff hr).mp h
  have hs : samplesOf ev = [] := h.samplesOf_eq_nil hw hd hi
  obtain ⟨hin, hcount⟩ := h.samplesOf_eq_nil_iff.mp hs
  exact ⟨hin, hcount, (step_eq_next_iff (by exact hr)).mpr ⟨ev, h.with_din hs ds n⟩⟩

/-! ### `STATUS` -/

theorem busy_getLsbD_zero (s : State) : s.busy.getLsbD 0 = decide (s.phase ≠ .idle) := by
  unfold State.busy
  split <;> simp_all

theorem illBit_getLsbD_zero (s : State) : s.illBit.getLsbD 0 = s.ill := by
  unfold State.illBit
  split <;> simp_all

/-- The byte of `STATUS` over its four fields. -/
def statusByte (g : BitVec 2) (l i b : BitVec 1) : BitVec 8 := 0#2 ++ (g ++ (0#1 ++ (l ++ (i ++ b))))

theorem status_eq_statusByte (s : State) : s.status = statusByte s.gainp s.sckl s.illBit s.busy := rfl

/-- Where each field lies in the byte, over the 32 values of the fields. -/
theorem statusByte_layout : ∀ (g : BitVec 2) (l i b : BitVec 1),
    (statusByte g l i b).getLsbD 0 = b.getLsbD 0 ∧ (statusByte g l i b).getLsbD 1 = i.getLsbD 0 ∧
    (statusByte g l i b).getLsbD 2 = l.getLsbD 0 ∧ (statusByte g l i b).getLsbD 3 = false ∧
    (statusByte g l i b).extractLsb' 4 2 = g ∧ (statusByte g l i b).getLsbD 6 = false ∧
    (statusByte g l i b).getLsbD 7 = false := by
  decide

/-- Settles O44: the layout of the byte, with `BUSY` and `ILL` read as bits; a read hands the state back. -/
theorem statusRegisterFields : Obligations.StatusRegisterFields := by
  intro s
  obtain ⟨h0, h1, h2, h3, hg, h6, h7⟩ := statusByte_layout s.gainp s.sckl s.illBit s.busy
  rw [busy_getLsbD_zero] at h0
  rw [illBit_getLsbD_zero] at h1
  rw [status_eq_statusByte]
  exact ⟨h0, h1, h2, h3, hg, h6, h7, rfl⟩

/-! ### The gain pulses -/

theorem writesOf_dataPulses (ds : List Level) : writesOf (dataPulses ds) = (List.replicate ds.length [1, 0]).flatten := by
  induction ds with
  | nil => rfl
  | cons d ds ih =>
    rw [dataPulses_cons, writesOf_append, ih, List.length_cons, List.replicate_succ, List.flatten_cons]
    rfl

theorem writesOf_gainPulses (g : Nat) : writesOf (gainPulses g) = (List.replicate g [1, 0]).flatten := by
  induction g with
  | zero => rfl
  | succ g ih =>
    rw [gainPulses_succ, writesOf_append, ih, List.replicate_succ, List.flatten_cons]
    rfl

/-- Settles O29: every pulse is one high and one low write, and the table is that of the gain codes. -/
theorem gainPulseTable : Obligations.GainPulseTable := by
  refine ⟨fun ds g hds => ?_, ⟨rfl, gainPulsesOf_128⟩, ⟨rfl, gainPulsesOf_32⟩, ⟨rfl, gainPulsesOf_64⟩,
    fun code => gainPulsesOf_other⟩
  rw [writesOf_append, writesOf_dataPulses, writesOf_gainPulses, hds, List.replicate_add, List.flatten_append]

end Sys2Proof.Machine
end

/-! ## A command past its polls ends (41_read.md R76) -/

section
namespace Sys2Proof.Machine

variable {s t u : State} {ev ev' : List Event}

/-- The steps a command in progress still needs where it no longer polls: three for each data pulse to come and two for each
gain pulse, less those of the pulse begun. -/
def stepsLeft (s : State) : Nat :=
  match s.phase with
  | .idle => 0
  | .wait => 0
  | .drise => 3 * (24 - s.bitcnt.toNat) + 2 * s.gainp.toNat
  | .dsamp => 3 * (24 - s.bitcnt.toNat) - 1 + 2 * s.gainp.toNat
  | .dfall => 3 * (24 - s.bitcnt.toNat) + 1 + 2 * s.gainp.toNat
  | .grise => 2 * (s.gainp.toNat - s.pulsecnt.toNat)
  | .gfall => 2 * (s.gainp.toNat - s.pulsecnt.toNat) - 1
  | .pdhi => 1

theorem stepsLeft_le (hi : Inv s) : stepsLeft s ≤ 78 := by
  have hg := s.gainp.isLt
  have hph := hi.phaseInv
  cases hp : s.phase <;> simp only [PhaseInv, hp] at hph <;> simp only [stepsLeft, hp] <;> omega

/-- Past its polls a command does not poll again. -/
theorem Transition.phase_ne_wait (h : Transition s ev t) (hb : s.phase ≠ .idle) (hw : s.phase ≠ .wait) :
    t.phase ≠ .wait := by
  cases h <;> simp_all

/-- Past its polls a command wastes no step. -/
theorem Transition.stepsLeft_eq (h : Transition s ev t) (hi : Inv s) (hb : s.phase ≠ .idle) (hw : s.phase ≠ .wait) :
    stepsLeft s = stepsLeft t + 1 := by
  have hph := hi.phaseInv
  cases h with
  | pdownHigh hp | pdownLow hp | pup hp | ready hp | read hp | setgain hp | setgainOther hp | setgainSkip hp
  | illegal hp => exact absurd hp hb
  | pollReady hp | pollBusy hp => exact absurd hp hw
  | dataRise hp =>
    simp only [PhaseInv, hp] at hph
    simp only [stepsLeft, hp]
    omega
  | dataSample hp =>
    simp only [PhaseInv, hp] at hph
    have hs := hi.ranges.bitcnt_succ_toNat
    simp only [stepsLeft, hp]
    omega
  | dataFallLast hp hc =>
    simp [stepsLeft, hp, hc]
    omega
  | dataFallMore hp hc =>
    simp only [stepsLeft, hp]
    omega
  | gainRise hp =>
    simp only [PhaseInv, hp] at hph
    simp only [stepsLeft, hp]
    omega
  | gainFallLast hp hg =>
    simp only [PhaseInv, hp] at hph
    have hs := pulsecnt_succ_toNat hph.1.2
    rw [hg] at hs
    simp only [stepsLeft, hp]
    omega
  | gainFallMore hp hg =>
    simp only [PhaseInv, hp] at hph
    have hs := pulsecnt_succ_toNat hph.1.2
    simp only [stepsLeft, hp]
    omega
  | pdhi hp => simp only [stepsLeft, hp]

/-- From `s` the command in progress has come to its end in `t`, with the events `ev`: its one response, last, and no
acceptance. -/
structure Completes (s : State) (ev : List Event) (t : State) : Prop where
  idle : t.phase = .idle
  trace_eq : t.trace = s.trace ++ ev
  lastEvent : ev.getLast? = some (.r t.rsp)
  responses : responsesOf ev = [t.rsp]
  accepted : acceptedOf ev = []

/-- A busy engine's transition that stays busy answers nothing. -/
theorem Transition.responsesOf_eq_nil (h : Transition s ev t) (hb : s.phase ≠ .idle) (ht : t.phase ≠ .idle) :
    responsesOf ev = [] := by
  have hbal := h.balance
  rw [h.acceptedOf_busy hb, unanswered, unanswered, if_neg hb, if_neg ht] at hbal
  exact List.length_eq_zero_iff.mp (by simpa using hbal.symm)

/-- A busy engine's transition to `IDLE` gives the one response. -/
theorem Transition.completes (h : Transition s ev t) (hb : s.phase ≠ .idle) (ht : t.phase = .idle) :
    Completes s ev t where
  idle := ht
  trace_eq := h.trace_eq
  lastEvent := h.getLast?_of_idle ht
  responses := by
    have hbal := h.balance
    rw [h.acceptedOf_busy hb, unanswered, unanswered, if_neg hb, if_pos ht] at hbal
    obtain ⟨v, hv⟩ := List.length_eq_one_iff.mp (by simpa using hbal.symm)
    have hr := h.rsp_eq
    rw [hv] at hr
    rw [hv, hr]
    rfl
  accepted := h.acceptedOf_busy hb

theorem Completes.of_resetTaken (h : Completes (resetTaken s) ev t) : Completes s ev t :=
  ⟨h.idle, h.trace_eq, h.lastEvent, h.responses, h.accepted⟩

theorem Completes.cons (h : Transition s ev t) (hb : s.phase ≠ .idle) (ht : t.phase ≠ .idle) (hc : Completes t ev' u) :
    Completes s (ev ++ ev') u where
  idle := hc.idle
  trace_eq := by rw [hc.trace_eq, h.trace_eq, List.append_assoc]
  lastEvent := by rw [List.getLast?_append, hc.lastEvent]; rfl
  responses := by rw [responsesOf_append, h.responsesOf_eq_nil hb ht, hc.responses]; rfl
  accepted := by rw [acceptedOf_append, h.acceptedOf_busy hb, hc.accepted]; rfl

theorem NoReset.mono {j k : Nat} (hjk : j ≤ k) (h : NoReset k s) : NoReset j s :=
  fun r hr => h r ((List.take_prefix_take_left hjk).subset hr)

/-- By induction on the steps left: one transition takes one of them, and the last gives the response. -/
theorem completes_in_stepsLeft (n : Nat) : ∀ s : State, Inv s → s.phase ≠ .idle → s.phase ≠ .wait →
    NoReset n s → stepsLeft s = n → ∃ t ev, run n s = .next t ∧ Completes s ev t := by
  induction n with
  | zero =>
    intro s hi hb hw _ hn
    obtain ⟨ev, t, h⟩ := Transition.exists_of_busy hb
    have hleft := h.stepsLeft_eq hi hb hw
    omega
  | succ n ih =>
    intro s hi hb hw hr hn
    have hi' := inv_resetTaken hi
    obtain ⟨ev, t, h⟩ := Transition.exists_of_busy (s := resetTaken s) hb
    have hnt : stepsLeft t = n := Nat.succ.inj ((h.stepsLeft_eq hi' hb hw).symm.trans hn)
    rw [run_succ n ((step_eq_next_iff hr.head).mpr ⟨ev, h⟩)]
    by_cases ht : t.phase = .idle
    · have h0 : n = 0 := by rw [← hnt, stepsLeft, ht]
      subst h0
      exact ⟨t, ev, rfl, (h.completes hb ht).of_resetTaken⟩
    · obtain ⟨u, ev', hrun, hc⟩ := ih t (h.keeps_inv hi') ht (h.phase_ne_wait hb hw) (hr.tail h.resets_eq) hnt
      exact ⟨u, ev ++ ev', hrun, (hc.cons h hb ht).of_resetTaken⟩

/-- Settles O32, in exactly the steps left, of which there are at most 72 + 6. -/
theorem commandPastItsPollsEnds : Obligations.CommandPastItsPollsEnds := by
  intro s hi hb hw hr
  have hle := stepsLeft_le hi
  obtain ⟨t, ev, hrun, hc⟩ := completes_in_stepsLeft (stepsLeft s) s hi hb hw (hr.mono hle) rfl
  exact ⟨stepsLeft s, t, ev, hle, hrun, hc.idle, hc.trace_eq, hc.lastEvent, hc.responses, hc.accepted⟩

end Sys2Proof.Machine
end

/-! ## Decoding and encoding (30_encoding.md R46 to R53) -/

section
namespace Sys2Proof

open Laws.OpField (opcode argument)

variable {w : CmdWord} {i : Instr}

/-! ### The word of a command and its fields -/

theorem encode_eq_packWord (i : Instr) : encode i = packWord (argument i) (opcode i) := by cases i <;> rfl

theorem encode_eq_iff_fields :
    encode i = w ↔ rsvField w = 0 ∧ opField w = opcode i ∧ argField w = argument i := by
  rw [encode_eq_packWord]
  constructor
  · rintro rfl
    exact ⟨rsvField_packWord _ _, opField_packWord _ _, argField_packWord _ _⟩
  · rintro ⟨hr, ho, ha⟩
    exact word_eq_of_fields hr ha ho

theorem wellFormed_setgain_iff {code : BitVec 32} : (Instr.setgain code).wellFormed = true ↔ code.toNat < 256 := by
  simp [Instr.wellFormed]

/-- A gain code below 256 is kept by the 8-bit `ARG` field (R47). -/
theorem setWidth_setWidth_of_wellFormed {code : BitVec 32} (h : (Instr.setgain code).wellFormed = true) :
    (code.setWidth 8).setWidth 32 = code := by
  apply BitVec.eq_of_toNat_eq
  have hc : code.toNat < 256 := wellFormed_setgain_iff.mp h
  simp only [BitVec.toNat_setWidth]
  omega

theorem wellFormed_setgain_argField (w : CmdWord) : (Instr.setgain ((argField w).setWidth 32)).wellFormed = true := by
  have ha := (argField w).isLt
  rw [wellFormed_setgain_iff, BitVec.toNat_setWidth]
  omega

theorem decodeNoArg_eq_ok_iff {j : Instr} : decodeNoArg j w = .ok i ↔ argField w = 0 ∧ j = i := by
  unfold decodeNoArg
  split <;> simp_all

theorem fields_of_decodeNoArg {j : Instr} (h : decodeNoArg j w = .ok i) (hwf : j.wellFormed = true)
    (hj : argument j = 0) (hr : rsvField w = 0) (ho : opField w = opcode j) :
    i.wellFormed = true ∧ rsvField w = 0 ∧ opField w = opcode i ∧ argField w = argument i := by
  obtain ⟨ha, rfl⟩ := decodeNoArg_eq_ok_iff.mp h
  exact ⟨hwf, hr, ho, ha.trans hj.symm⟩

/-! ### Decoding inverts encoding -/

theorem decode_encode (h : i.wellFormed = true) : decode (encode i) = .ok i := by
  obtain ⟨hr, ho, ha⟩ := encode_eq_iff_fields.mp (Eq.refl (encode i))
  cases i with
  | setgain code => simp [decode, hr, ho, ha, opcode, argument, setWidth_setWidth_of_wellFormed h]
  | _ => simp [decode, decodeNoArg, hr, ho, ha, opcode, argument]

/-- A word that decodes to a command holds the command's fields: one branch of the decoder for each value of `OP`. -/
theorem fields_of_decode (h : decode w = .ok i) :
    i.wellFormed = true ∧ rsvField w = 0 ∧ opField w = opcode i ∧ argField w = argument i := by
  unfold decode at h
  split at h
  · cases h
  next hr =>
  replace hr : rsvField w = 0 := by simpa using hr
  split at h
  · exact fields_of_decodeNoArg h rfl rfl hr ‹_›
  split at h
  · exact fields_of_decodeNoArg h rfl rfl hr ‹_›
  split at h
  · exact fields_of_decodeNoArg h rfl rfl hr ‹_›
  split at h
  · exact fields_of_decodeNoArg h rfl rfl hr ‹_›
  split at h
  · next ho =>
    cases h
    exact ⟨wellFormed_setgain_argField w, hr, ho, by simp [argument]⟩
  · cases h

/-- Settles O4: the decoder reads the fields the encoder writes, and a word is its fields. -/
theorem decodeAndEncodeAgree : Obligations.DecodeAndEncodeAgree := by
  intro w i
  constructor
  · intro h
    obtain ⟨hwf, hfields⟩ := fields_of_decode h
    exact ⟨hwf, encode_eq_iff_fields.mpr hfields⟩
  · rintro ⟨hwf, rfl⟩
    exact decode_encode hwf

/-! ### The legal words as numbers -/

/-- A well-formed command has one word. -/
theorem decode_eq_ok_iff (h : i.wellFormed = true) : decode w = .ok i ↔ w = encode i := by
  rw [decodeAndEncodeAgree w i]
  exact ⟨fun hw => hw.2.symm, fun hw => ⟨h, hw.symm⟩⟩

theorem exists_decode_setgain_iff : (∃ code, decode w = .ok (.setgain code)) ↔ w.toNat % 256 = 5 := by
  have hop := opField_toNat w
  have hrsv := rsvField_toNat w
  constructor
  · rintro ⟨code, h⟩
    obtain ⟨-, hr, ho, -⟩ := fields_of_decode h
    simp [hr] at hrsv
    simp [ho, opcode] at hop
    omega
  · intro h
    refine ⟨(argField w).setWidth 32, (decodeAndEncodeAgree _ _).mpr ⟨wellFormed_setgain_argField w, ?_⟩⟩
    refine encode_eq_iff_fields.mpr ⟨BitVec.eq_of_toNat_eq ?_, BitVec.eq_of_toNat_eq ?_, by simp [argument]⟩
    · rw [hrsv]; simp; omega
    · rw [hop]; simp [opcode]; omega

theorem exists_decode_ok_iff :
    (∃ i, decode w = .ok i) ↔ (1 ≤ w.toNat ∧ w.toNat ≤ 4) ∨ w.toNat % 256 = 5 := by
  constructor
  · rintro ⟨i, h⟩
    cases i with
    | setgain code => exact .inr (exists_decode_setgain_iff.mp ⟨code, h⟩)
    | _ =>
      rw [(decode_eq_ok_iff rfl).mp h]
      exact .inl (by decide)
  · rintro (h | h)
    · have hw : w = 1 ∨ w = 2 ∨ w = 3 ∨ w = 4 := by bv_omega
      obtain rfl | rfl | rfl | rfl := hw
      · exact ⟨.pdown, by decide⟩
      · exact ⟨.pup, by decide⟩
      · exact ⟨.ready, by decide⟩
      · exact ⟨.read, by decide⟩
    · obtain ⟨code, h⟩ := exists_decode_setgain_iff.mpr h
      exact ⟨_, h⟩

theorem exists_decode_error_iff :
    (∃ e, decode w = .error e) ↔ ¬((1 ≤ w.toNat ∧ w.toNat ≤ 4) ∨ w.toNat % 256 = 5) := by
  rw [← exists_decode_ok_iff]
  cases decode w <;> simp

end Sys2Proof
end

/-! ## Illegal words and the counts of words (30_encoding.md R49, R53) -/

section
namespace Sys2Proof.Machine

variable {w : CmdWord}

/-- Settles O5: a word is illegal where it is none of the legal numbers, and its acceptance is the exception. -/
theorem illegalWordsAreTheListed : Obligations.IllegalWordsAreTheListed := by
  intro w
  constructor
  · rw [exists_decode_error_iff]
    omega
  · rintro ⟨e, hd⟩ s os hp ho hr
    exact ⟨_, by rw [step_accept hp ho hr, dispatchWord_error hd], rfl, rfl, rfl⟩

theorem isIllegalWord_eq_false_iff :
    isIllegalWord w = false ↔ (1 ≤ w.toNat ∧ w.toNat ≤ 4) ∨ w.toNat % 256 = 5 := by
  rw [← exists_decode_ok_iff]
  unfold isIllegalWord
  cases decode w <;> simp

theorem gainPulsesOf_isSome_iff (code : BitVec 32) :
    (gainPulsesOf code).isSome ↔ code = 128 ∨ code = 64 ∨ code = 32 := by
  obtain ⟨rfl, h⟩ | ⟨rfl, h⟩ | ⟨rfl, h⟩ | ⟨h1, h2, h3, h⟩ := gainPulsesOf_cases code
  · simp
  · simp
  · simp
  · simp_all

/-- The legal words, counted: the 256 words of `SETGAIN`, then the four plain commands. -/
def legalWord (k : Fin 260) : Fin 65536 :=
  if h : k.val < 256 then ⟨256 * k.val + 5, by omega⟩ else ⟨k.val - 255, by omega⟩

theorem legalWord_val (k : Fin 260) :
    (k.val < 256 ∧ (legalWord k).val = 256 * k.val + 5) ∨ (256 ≤ k.val ∧ (legalWord k).val = k.val - 255) := by
  unfold legalWord
  split
  · next h => exact .inl ⟨h, rfl⟩
  · next h => exact .inr ⟨by omega, rfl⟩

theorem legalWord_injective : Function.Injective legalWord := by
  intro j k h
  have hv := congrArg Fin.val h
  have hj := legalWord_val j
  have hk := legalWord_val k
  omega

theorem legal_iff_exists_legalWord (n : Fin 65536) :
    isIllegalWord (BitVec.ofNat 16 n.val) = false ↔ ∃ k, legalWord k = n := by
  have hn : (BitVec.ofNat 16 n.val).toNat = n.val := by simp
  rw [isIllegalWord_eq_false_iff, hn]
  constructor
  · rintro (h | h)
    · refine ⟨⟨n.val + 255, by omega⟩, Fin.ext ?_⟩
      rw [legalWord, dif_neg (by simp only [not_lt]; omega)]
      simp
    · refine ⟨⟨n.val / 256, by omega⟩, Fin.ext ?_⟩
      rw [legalWord, dif_pos (by simp only; omega)]
      simp only
      omega
  · rintro ⟨k, rfl⟩
    have hk := legalWord_val k
    omega

theorem card_legal_words :
    (Finset.univ.filter fun n : Fin 65536 => isIllegalWord (BitVec.ofNat 16 n.val) = false).card = 260 := by
  have himage : (Finset.univ.filter fun n : Fin 65536 => isIllegalWord (BitVec.ofNat 16 n.val) = false) =
      Finset.univ.image legalWord := by
    ext n
    simp only [Finset.mem_filter, Finset.mem_image, Finset.mem_univ, true_and, legal_iff_exists_legalWord]
  rw [himage, Finset.card_image_of_injective _ legalWord_injective, Finset.card_univ, Fintype.card_fin]

theorem card_illegal_words :
    (Finset.univ.filter fun n : Fin 65536 => isIllegalWord (BitVec.ofNat 16 n.val) = true).card = 65276 := by
  have hcompl : (Finset.univ.filter fun n : Fin 65536 => isIllegalWord (BitVec.ofNat 16 n.val) = true) =
      (Finset.univ.filter fun n : Fin 65536 => isIllegalWord (BitVec.ofNat 16 n.val) = false)ᶜ := by
    ext n
    simp only [Finset.mem_compl, Finset.mem_filter, Finset.mem_univ, true_and, Bool.not_eq_false]
  rw [hcompl, Finset.card_compl, card_legal_words, Fintype.card_fin]

/-- A `SETGAIN` word has a recognised code where it is the word of one of the three. -/
theorem recognised_iff_word {code : BitVec 32} (h : decode w = .ok (.setgain code)) :
    (gainPulsesOf code).isSome ↔ w = 0x8005 ∨ w = 0x4005 ∨ w = 0x2005 := by
  have hword (c : BitVec 32) (hc : (Instr.setgain c).wellFormed = true) : code = c ↔ w = encode (.setgain c) := by
    rw [← decode_eq_ok_iff hc, h]
    simp
  rw [gainPulsesOf_isSome_iff, hword 128 rfl, hword 64 rfl, hword 32 rfl]
  rfl

/-- Settles O6: each command has its word, and the legal words are 256 and four. -/
theorem wordCounts : Obligations.WordCounts := by
  refine ⟨fun w => ⟨decode_eq_ok_iff rfl, decode_eq_ok_iff rfl, decode_eq_ok_iff rfl, decode_eq_ok_iff rfl⟩,
    fun w => ?_, fun w code => recognised_iff_word, card_legal_words, card_illegal_words⟩
  rw [exists_decode_setgain_iff]
  constructor
  · intro h
    exact ⟨w.toNat / 256, by omega, by omega⟩
  · rintro ⟨n, -, hn⟩
    omega

end Sys2Proof.Machine
end

/-! ## The assembler and the disassembler (30_encoding.md R54 to R57) -/

section
namespace Sys2Proof.Machine

variable {w : CmdWord} {i : Instr}

/-! ### Numbers -/

theorem numberBelow_of_lt {bound n : Nat} {cs : List Char} (h : numberValue cs = some n) (hn : n < bound) :
    numberBelow bound cs = some n := by simp [numberBelow, h, hn]

theorem numberBelow_of_le {bound n : Nat} {cs : List Char} (h : numberValue cs = some n) (hn : bound ≤ n) :
    numberBelow bound cs = none := by simp [numberBelow, h, hn]

theorem numberBelow_of_none {bound : Nat} {cs : List Char} (h : numberValue cs = none) :
    numberBelow bound cs = none := by simp [numberBelow, h]

/-- Digits alone are a decimal number: the `x` of a hexadecimal number is none. -/
theorem numberValue_of_digits {ds : List Char} (hne : ds ≠ []) (h : ∀ c ∈ ds, c.isDigit) :
    numberValue ds = digitsValue 10 0 ds := by
  unfold numberValue
  split
  · exact absurd rfl hne
  · exact absurd (h 'x' (by simp)) (by decide)
  · exact absurd (h 'x' (by simp)) (by decide)
  · rfl

/-! ### Lines of two tokens -/

theorem assembleTwo_setgain {a : List Char} {n : Nat} (h : numberBelow 256 a = some n) :
    assembleTwo textSetgain a = .word (encode (.setgain (BitVec.ofNat 32 n))) := by simp [assembleTwo, h]

theorem assembleTwo_setgain_bad {a : List Char} (h : numberBelow 256 a = none) : assembleTwo textSetgain a = .bad := by
  simp [assembleTwo, h]

theorem assembleTwo_word {a : List Char} {n : Nat} (h : numberBelow 65536 a = some n) :
    assembleTwo textWord a = .word (BitVec.ofNat 16 n) := by
  have hne : textWord ≠ textSetgain := by decide
  simp [assembleTwo, h, hne]

/-- Settles O9: the bound of the operand is that of the field. -/
theorem assemblerRefusesCodesOutOfRange : Obligations.AssemblerRefusesCodesOutOfRange := by
  intro a
  refine ⟨fun n h hn => ⟨assembleTwo_setgain (numberBelow_of_lt h hn), decode_encode ?_⟩,
    fun n h hn => assembleTwo_setgain_bad (numberBelow_of_le h hn),
    fun h => assembleTwo_setgain_bad (numberBelow_of_none h)⟩
  rw [wellFormed_setgain_iff, BitVec.toNat_ofNat]
  omega

/-! ### The lines that give a word -/

theorem assembleOne_eq_word {t : List Char} (h : assembleOne t = .word w) :
    t ∈ [textPdown, textPup, textReady, textRead, textGainA128, textGainB32, textGainA64] := by
  by_contra hnone
  simp only [List.mem_cons, List.not_mem_nil, or_false, not_or] at hnone
  obtain ⟨h1, h2, h3, h4, h5, h6, h7⟩ := hnone
  simp [assembleOne, h1, h2, h3, h4, h5, h6, h7] at h

theorem assembleTwo_eq_word {t a : List Char} (h : assembleTwo t a = .word w) : t = textSetgain ∨ t = textWord := by
  by_contra hnone
  obtain ⟨h1, h2⟩ := not_or.mp hnone
  simp [assembleTwo, h1, h2] at h

theorem assembleLine_eq_word {line : List Char} (h : assembleLine line = .word w) :
    (∃ t, tokens line = [t] ∧ assembleOne t = .word w) ∨
      (∃ t a, tokens line = [t, a] ∧ assembleTwo t a = .word w) := by
  unfold assembleLine at h
  split at h
  · cases h
  · next t ht => exact .inl ⟨t, ht, h⟩
  · next t a ht => exact .inr ⟨t, a, ht, h⟩
  · cases h

/-- Settles O8: the three expansions are computed; a line that gives a word has one token or two. -/
theorem pseudoInstructionsExpand : Obligations.PseudoInstructionsExpand := by
  refine ⟨⟨by decide, by decide, by decide, rfl, rfl⟩, ⟨by decide, by decide, by decide, rfl, rfl⟩,
    ⟨by decide, by decide, by decide, rfl, rfl⟩, fun t w => assembleOne_eq_word, fun line w h => ?_⟩
  obtain ⟨t, ht, h⟩ | ⟨t, a, ht, h⟩ := assembleLine_eq_word h
  · have hmem := assembleOne_eq_word h
    exact .inl (by simpa [ht] using hmem)
  · obtain rfl | rfl := assembleTwo_eq_word h
    · exact .inr (.inl ⟨a, ht⟩)
    · exact .inr (.inr ⟨a, ht⟩)

/-- Settles O3: the table, row by row. -/
theorem encodingExamples : Obligations.EncodingExamples := by
  refine ⟨?_, ?_, ?_, ?_, ?_, ?_, ?_, ?_, ?_, ?_, ?_, ?_, ?_, ?_⟩ <;> decide

/-! ### Tokens -/

/-- The text is one token: it has a character, and none that ends a token or begins a comment. -/
def isToken (t : List Char) : Bool := !t.isEmpty && t.all fun c => !isBlank c && c ≠ ';'

theorem isToken_iff {t : List Char} :
    isToken t = true ↔ t ≠ [] ∧ (∀ c ∈ t, isBlank c = false) ∧ ∀ c ∈ t, c ≠ ';' := by
  simp [isToken, forall_and]

theorem isToken_of_alphanum {t : List Char} (hne : t ≠ []) (h : ∀ c ∈ t, c.isAlphanum) : isToken t = true := by
  refine isToken_iff.mpr ⟨hne, fun c hc => Bool.eq_false_iff.mpr fun hb => ?_, fun c hc => ?_⟩
  · simp only [isBlank, Bool.or_eq_true, decide_eq_true_eq] at hb
    obtain (rfl | rfl) | rfl := hb <;> exact absurd (h _ hc) (by decide)
  · rintro rfl
    exact absurd (h _ hc) (by decide)

theorem tokensFrom_append {a : List Char} (h : ∀ c ∈ a, isBlank c = false) (tok rest : List Char) :
    tokensFrom tok (a ++ rest) = tokensFrom (a.reverse ++ tok) rest := by
  induction a generalizing tok with
  | nil => rfl
  | cons c cs ih =>
    obtain ⟨hc, hcs⟩ := List.forall_mem_cons.mp h
    simp [tokensFrom, hc, ih hcs]

theorem tokensFrom_token {a : List Char} (h : isToken a = true) : tokensFrom [] a = [a] := by
  obtain ⟨hne, hb, -⟩ := isToken_iff.mp h
  have := tokensFrom_append hb [] []
  simpa [tokensFrom, hne] using this

theorem tokens_two {a b : List Char} (ha : isToken a = true) (hb : isToken b = true) :
    tokens (a ++ ' ' :: b) = [a, b] := by
  obtain ⟨hne, hblank, hcom⟩ := isToken_iff.mp ha
  obtain ⟨-, -, hcom'⟩ := isToken_iff.mp hb
  have hline : (a ++ ' ' :: b).takeWhile (· ≠ ';') = a ++ ' ' :: b := by
    simp only [List.takeWhile_eq_self_iff, List.mem_append, List.mem_cons, decide_eq_true_eq]
    rintro c (h | rfl | h)
    · exact hcom c h
    · decide
    · exact hcom' c h
  have hspace : isBlank ' ' = true := rfl
  rw [tokens, hline, tokensFrom_append hblank]
  simp [tokensFrom, hspace, hne, tokensFrom_token hb]

theorem assembleLine_two {a b : List Char} (ha : isToken a = true) (hb : isToken b = true) :
    assembleLine (a ++ ' ' :: b) = assembleTwo a b := by simp [assembleLine, tokens_two ha hb]

/-! ### Printed digits -/

theorem digitValue_ten_digitChar : ∀ n < 10, digitValue 10 (digitChar n) = some n := by decide

theorem digitValue_sixteen_digitChar : ∀ n < 16, digitValue 16 (digitChar n) = some n := by decide

theorem isDigit_digitChar : ∀ n < 10, (digitChar n).isDigit = true := by decide

theorem digitChar_mem_upper : ∀ n < 16, digitChar n ∈
    ['0', '1', '2', '3', '4', '5', '6', '7', '8', '9', 'A', 'B', 'C', 'D', 'E', 'F'] := by decide

theorem isAlphanum_digitChar : ∀ n < 16, (digitChar n).isAlphanum = true := by decide

theorem decimalText_ne_nil (n : Nat) : decimalText n ≠ [] := by
  unfold decimalText
  split
  · simp
  · split <;> simp

theorem isDigit_of_mem_decimalText {n : Nat} (hn : n < 1000) : ∀ c ∈ decimalText n, c.isDigit := by
  unfold decimalText
  split
  · simpa using isDigit_digitChar n ‹_›
  split
  · simpa using ⟨isDigit_digitChar _ (by omega), isDigit_digitChar _ (by omega)⟩
  · simpa using ⟨isDigit_digitChar _ (by omega), isDigit_digitChar _ (by omega), isDigit_digitChar _ (by omega)⟩

theorem digitsValue_decimalText {n : Nat} (hn : n < 1000) : digitsValue 10 0 (decimalText n) = some n := by
  unfold decimalText
  split
  · simp [digitsValue, digitValue_ten_digitChar n ‹_›]
  split
  · simp [digitsValue, digitValue_ten_digitChar (n / 10) (by omega), digitValue_ten_digitChar (n % 10) (by omega)]
    omega
  · simp [digitsValue, digitValue_ten_digitChar (n / 100) (by omega),
      digitValue_ten_digitChar (n / 10 % 10) (by omega), digitValue_ten_digitChar (n % 10) (by omega)]
    omega

theorem isToken_decimalText {n : Nat} (hn : n < 1000) : isToken (decimalText n) = true := by
  refine isToken_of_alphanum (decimalText_ne_nil n) fun c hc => ?_
  have hdigit := isDigit_of_mem_decimalText hn c hc
  simp [Char.isAlphanum, hdigit]

theorem numberValue_decimalText {n : Nat} (hn : n < 1000) : numberValue (decimalText n) = some n := by
  rw [numberValue_of_digits (decimalText_ne_nil n) (isDigit_of_mem_decimalText hn), digitsValue_decimalText hn]

/-- The digits of a word printed in hexadecimal (R56). -/
def hexDigits (w : CmdWord) : List Char :=
  [digitChar (w.toNat / 4096), digitChar (w.toNat / 256 % 16), digitChar (w.toNat / 16 % 16), digitChar (w.toNat % 16)]

theorem hexText_eq (w : CmdWord) : hexText w = '0' :: 'x' :: hexDigits w := rfl

theorem forall_mem_hexDigits {p : Char → Prop} (hp : ∀ n < 16, p (digitChar n)) (w : CmdWord) :
    ∀ c ∈ hexDigits w, p c := by
  have hw := w.isLt
  simp only [hexDigits, List.forall_mem_cons]
  exact ⟨hp _ (by omega), hp _ (by omega), hp _ (by omega), hp _ (by omega), by simp⟩

theorem digitsValue_hexDigits (w : CmdWord) : digitsValue 16 0 (hexDigits w) = some w.toNat := by
  have hw := w.isLt
  simp [hexDigits, digitsValue, digitValue_sixteen_digitChar (w.toNat / 4096) (by omega),
    digitValue_sixteen_digitChar (w.toNat / 256 % 16) (by omega),
    digitValue_sixteen_digitChar (w.toNat / 16 % 16) (by omega), digitValue_sixteen_digitChar (w.toNat % 16) (by omega)]
  omega

theorem isToken_hexText (w : CmdWord) : isToken (hexText w) = true := by
  refine isToken_of_alphanum (by simp [hexText]) ?_
  rw [hexText_eq]
  simp only [List.forall_mem_cons]
  exact ⟨by decide, by decide, forall_mem_hexDigits isAlphanum_digitChar w⟩

theorem numberValue_hexText (w : CmdWord) : numberValue (hexText w) = some w.toNat := digitsValue_hexDigits w

/-! ### The printed line of a command and of an illegal word -/

/-- The line a command prints as (R56). -/
def commandText : Instr → List Char
  | .pdown => textPdown
  | .pup => textPup
  | .ready => textReady
  | .read => textRead
  | .setgain code => textSetgain ++ ' ' :: decimalText code.toNat

theorem disassemble_of_ok (h : decode w = .ok i) : disassemble w = commandText i := by
  cases i <;> simp [disassemble, commandText, h]

theorem disassemble_of_error {e : DecodeError} (h : decode w = .error e) :
    disassemble w = textWord ++ ' ' :: hexText w := by simp [disassemble, h]

theorem assembleLine_commandText (h : i.wellFormed = true) : assembleLine (commandText i) = .word (encode i) := by
  cases i with
  | setgain code =>
    have hc : code.toNat < 256 := wellFormed_setgain_iff.mp h
    rw [commandText, assembleLine_two rfl (isToken_decimalText (by omega)),
      assembleTwo_setgain (numberBelow_of_lt (numberValue_decimalText (by omega)) hc), BitVec.ofNat_toNat,
      BitVec.setWidth_eq]
  | _ => decide

theorem assembleLine_wordText (w : CmdWord) : assembleLine (textWord ++ ' ' :: hexText w) = .word w := by
  rw [assembleLine_two rfl (isToken_hexText w), assembleTwo_word (numberBelow_of_lt (numberValue_hexText w) w.isLt),
    BitVec.ofNat_toNat, BitVec.setWidth_eq]

theorem assembleLine_disassemble (w : CmdWord) : assembleLine (disassemble w) = .word w := by
  cases hd : decode w with
  | error e => rw [disassemble_of_error hd, assembleLine_wordText]
  | ok i =>
    obtain ⟨hwf, rfl⟩ := (decodeAndEncodeAgree w i).mp hd
    rw [disassemble_of_ok hd, assembleLine_commandText hwf]

/-- Settles O7: a printed line is the word's command or its digits, and each is read back. -/
theorem disassemblyIsTheInverseOfAssembly : Obligations.DisassemblyIsTheInverseOfAssembly := by
  refine ⟨assembleLine_disassemble, rfl, rfl, rfl, rfl, fun w code h => ?_, fun w e h => ?_⟩
  · obtain ⟨hwf, -⟩ := fields_of_decode h
    have hc : code.toNat < 1000 := lt_trans (wellFormed_setgain_iff.mp hwf) (by decide)
    exact ⟨decimalText code.toNat, disassemble_of_ok h, isDigit_of_mem_decimalText hc, digitsValue_decimalText hc⟩
  · exact ⟨_, _, _, _, disassemble_of_error h, forall_mem_hexDigits digitChar_mem_upper w, digitsValue_hexDigits w⟩

end Sys2Proof.Machine
end

/-! ## The line control commands (40_line_control.md R58 to R62) -/

section
namespace Sys2Proof.Machine

variable {s t : State}

/-! ### The acceptance step of each command, whole state: a lemma for each branch of its rule -/

theorem respond_pinWrite_eq (v : Level) (r : RspWord) (s : State) :
    respond r (pinWrite v s) = { s with sckl := v, rsp := r, phase := .idle, trace := s.trace ++ [.w v, .r r] } := by
  simp [respond_eq, pinWrite_eq]

theorem exec_pdown_highOnly (hf : s.cfg.pdownForm = .highOnly) :
    exec .pdown s = .next { s with sckl := 1, rsp := 0, phase := .idle, trace := s.trace ++ [.w 1, .r 0] } := by
  simp [exec, execPdown, pdownState, hf, respond_pinWrite_eq]

theorem exec_pdown_lowThenHigh (hf : s.cfg.pdownForm = .lowThenHigh) :
    exec .pdown s = .next { s with sckl := 0, phase := .pdhi, trace := s.trace ++ [.w 0] } := by
  simp [exec, execPdown, pdownState, hf, pinWrite_eq]

theorem exec_pup (s : State) :
    exec .pup s = .next { s with sckl := 0, rsp := 0, phase := .idle, trace := s.trace ++ [.w 0, .r 0] } := by
  simp [exec, execPup, respond_pinWrite_eq]

theorem exec_ready (s : State) : exec .ready s = .next (respond (readyResponse (dinNow s)) (pinSample s)) := rfl

theorem exec_ready_fixed {d : Level} {ds : List Level} (h : s.dinIn = d :: ds) :
    exec .ready s = .next
      { s with
        rsp := readyResponse d, phase := .idle, trace := s.trace ++ [.s d, .r (readyResponse d)], dinIn := ds } := by
  simp [exec_ready, dinNow_cons s h, pinSample_eq_cons s h, respond_eq]

theorem exec_ready_free {d : Level} (h : s.dinIn = []) (hd : Config.dinDraw s.cfg.dataPin s.dinCount = d) :
    exec .ready s = .next
      { s with
        rsp := readyResponse d, phase := .idle, trace := s.trace ++ [.s d, .r (readyResponse d)]
        dinCount := s.dinCount + 1 } := by
  simp [exec_ready, dinNow_nil s h, pinSample_eq_nil s h, respond_eq, hd]

theorem exec_read (s : State) : exec .read s = .next { s with cur := .read, phase := .wait } := rfl

theorem exec_setgain_recognised {code : BitVec 32} {g : BitVec 2} (hg : gainPulsesOf code = some g) :
    exec (.setgain code) s = .next
      { s with gainp := g, sckl := 0, cur := .setgain, phase := .wait, trace := s.trace ++ [.w 0] } := by
  simp [exec, execSetgain, setgainState, hg, setgainTail, pinWrite_eq]

theorem exec_setgain_perform {code : BitVec 32} (hg : gainPulsesOf code = none) (hf : s.cfg.setgainTail = .perform) :
    exec (.setgain code) s = .next
      { s with sckl := 0, cur := .setgain, phase := .wait, trace := s.trace ++ [.w 0] } := by
  simp [exec, execSetgain, setgainState, hg, hf, setgainTail, pinWrite_eq]

theorem exec_setgain_skip {code : BitVec 32} (hg : gainPulsesOf code = none) (hf : s.cfg.setgainTail = .skip) :
    exec (.setgain code) s = .next { s with rsp := 0, phase := .idle, trace := s.trace ++ [.r 0] } := by
  simp [exec, execSetgain, setgainState, hg, hf, respond_eq]

/-- The second write of `PDOWN` under `LOW_THEN_HIGH`, whole state (R58). -/
theorem step_pdhi_eq (hp : s.phase = .pdhi) (hr : resetAsserted s = false) :
    step s = .next
      { s with
        sckl := 1, rsp := 0, phase := .idle, trace := s.trace ++ [.w 1, .r 0], resets := s.resets.tail } := by
  rw [step_pdhi hp hr, stepPdhi, respond_pinWrite_eq]
  rfl

/-- Settles O13: the two forms of the acceptance step, and the step of `PDHI`. -/
theorem pdownDrivesTheClockHigh : Obligations.PdownDrivesTheClockHigh :=
  fun _ => ⟨exec_pdown_highOnly, exec_pdown_lowThenHigh, step_pdhi_eq⟩

/-- Settles O14: one write and the response, with no case on the level before. -/
theorem pupDrivesTheClockLow : Obligations.PupDrivesTheClockLow := exec_pup

/-- Settles O15: the sample is the first fixed level, or the free one where none is fixed. -/
theorem readyReportsTheLine : Obligations.ReadyReportsTheLine :=
  fun _ => ⟨fun _ _ h => exec_ready_fixed h, fun h => exec_ready_free h rfl⟩

/-- Settles O45: the frame of each branch is read off its whole state; `READY`'s off the frames of the sample and the
response. -/
theorem commandFrames : Obligations.CommandFrames := by
  intro i s
  cases i with
  | pdown =>
    cases hf : s.cfg.pdownForm with
    | highOnly => exact ⟨_, exec_pdown_highOnly hf, by simp⟩
    | lowThenHigh => exact ⟨_, exec_pdown_lowThenHigh hf, by simp⟩
  | pup => exact ⟨_, exec_pup s, by simp⟩
  | ready => exact ⟨_, exec_ready s, by simp⟩
  | read => exact ⟨_, exec_read s, by simp⟩
  | setgain code =>
    cases hg : gainPulsesOf code with
    | some g => exact ⟨_, exec_setgain_recognised hg, by simp [hg]⟩
    | none =>
      cases hf : s.cfg.setgainTail with
      | perform => exact ⟨_, exec_setgain_perform hg hf, by simp⟩
      | skip => exact ⟨_, exec_setgain_skip hg hf, by simp⟩

/-! ### Pairs of commands -/

/-- Every step uses up one entry of the reset input, a reset as well. -/
theorem NoReset.after_step {k : Nat} (hr : NoReset (k + 1) s) (h : step s = .next t) : NoReset k t := by
  obtain rfl | ⟨ev, ht⟩ := step_eq_next_cases h
  · exact hr.tail rfl
  · exact hr.tail ht.resets_eq

/-- Settles O16: the steps of the two commands in a row, and the events they append. -/
theorem pdownThenPupGivesLowHighLow : Obligations.PdownThenPupGivesLowHighLow := by
  intro s os hp hs ho hr
  have hpdown := stepRunsTheDecodedCommand s 0x0001 (0x0002 :: os) .pdown hp ho hr.head rfl
  refine ⟨fun hf => ?_, fun hf => ?_⟩
  · have h1 := hpdown.trans (exec_pdown_highOnly hf)
    have hr1 := hr.after_step h1
    have h2 := (stepRunsTheDecodedCommand _ 0x0002 os .pup rfl rfl hr1.head rfl).trans (exec_pup _)
    refine ⟨_, [.c 0x0001, .w 1, .r 0, .c 0x0002, .w 0, .r 0],
      (run_succ 1 h1).trans (run_succ 0 h2), ?_, rfl, ?_, rfl, rfl⟩
    · simp
    · rw [hs]; rfl
  · have h1 := hpdown.trans (exec_pdown_lowThenHigh hf)
    have hr1 := hr.after_step h1
    have h2 := step_pdhi_eq rfl hr1.head
    have hr2 := hr1.after_step h2
    have h3 := (stepRunsTheDecodedCommand _ 0x0002 os .pup rfl rfl hr2.head rfl).trans (exec_pup _)
    refine ⟨_, [.c 0x0001, .w 0, .w 1, .r 0, .c 0x0002, .w 0, .r 0],
      (run_succ 2 h1).trans ((run_succ 1 h2).trans (run_succ 0 h3)), ?_, rfl, ?_, rfl, rfl⟩
    · simp
    · rw [hs]; decide

/-- The acceptance of `READY` on a fixed level, whole state: no line is written (40_line_control.md R60). -/
theorem step_ready_fixed {os : List CmdWord} {d : Level} {ds : List Level} (hp : s.phase = .idle)
    (ho : s.offers = 0x0003 :: os) (hd : s.dinIn = d :: ds) (hr : resetAsserted s = false) :
    step s = .next
      { s with
        rsp := readyResponse d, trace := s.trace ++ [.c 0x0003, .s d, .r (readyResponse d)], offers := os
        resets := s.resets.tail, dinIn := ds } := by
  rw [stepRunsTheDecodedCommand s 0x0003 os .ready hp ho hr rfl, exec_ready_fixed (by exact hd)]
  simp [hp]

/-- Settles O17: the same step twice, on the same level. -/
theorem readyIsIdempotent : Obligations.ReadyIsIdempotent := by
  intro s os d ds hp ho hd hr
  have h1 := step_ready_fixed hp ho hd hr.head
  have h2 := step_ready_fixed (by exact hp) rfl rfl (hr.after_step h1).head
  refine ⟨_, _, run_succ 0 h1, (run_succ 1 h1).trans (run_succ 0 h2), rfl, rfl, rfl, ?_⟩
  simp [writesOf]

end Sys2Proof.Machine
end

/-! ## Paths: several transitions in a row -/

section
namespace Sys2Proof.Machine

variable {s t u : State} {ev ev' : List Event} {k l : Nat}

/-- A transition is a step where no reset is asserted. -/
theorem step_of_transition (hr : resetAsserted s = false) (h : Transition (resetTaken s) ev t) : step s = .next t :=
  (step_eq_next_iff hr).mpr ⟨ev, h⟩

/-- No transition reads or writes the reset input. -/
theorem Transition.with_resets (h : Transition s ev t) (rs : List Bool) :
    Transition { s with resets := rs } ev { t with resets := rs } := by
  cases h with
  | pdownHigh hp ho hd hf => exact .pdownHigh hp ho hd hf
  | pdownLow hp ho hd hf => exact .pdownLow hp ho hd hf
  | pup hp ho hd => exact .pup hp ho hd
  | ready hp ho hd => exact .ready hp ho hd
  | read hp ho hd => exact .read hp ho hd
  | setgain hp ho hd hg => exact .setgain hp ho hd hg
  | setgainOther hp ho hd hg hf => exact .setgainOther hp ho hd hg hf
  | setgainSkip hp ho hd hg hf => exact .setgainSkip hp ho hd hg hf
  | illegal hp ho hd => exact .illegal hp ho hd
  | pollReady hp h0 => exact .pollReady hp h0
  | pollBusy hp h0 => exact .pollBusy hp h0
  | dataRise hp => exact .dataRise hp
  | dataSample hp => exact .dataSample hp
  | dataFallLast hp hb => exact .dataFallLast hp hb
  | dataFallMore hp hb => exact .dataFallMore hp hb
  | gainRise hp => exact .gainRise hp
  | gainFallLast hp hg => exact .gainFallLast hp hg
  | gainFallMore hp hg => exact .gainFallMore hp hg
  | pdhi hp => exact .pdhi hp

/-- `Path k s ev t`: `k` transitions lead from `s` to `t` and append the events `ev`. The reset input stays as it is, so
that `Path.run_eq` accounts for it once for all the steps. -/
inductive Path : Nat → State → List Event → State → Prop where
  | nil (s : State) : Path 0 s [] s
  | cons {k : Nat} {s t u : State} {ev ev' : List Event} (h : Transition s ev t) (hp : Path k t ev' u) :
      Path (k + 1) s (ev ++ ev') u

theorem Path.append (h : Path k s ev t) (h' : Path l t ev' u) : Path (k + l) s (ev ++ ev') u := by
  induction h with
  | nil s => rwa [Nat.zero_add]
  | cons ht _ ih =>
    rw [Nat.add_right_comm, List.append_assoc]
    exact .cons ht (ih h')

theorem Path.trace_eq (h : Path k s ev t) : t.trace = s.trace ++ ev := by
  induction h with
  | nil s => exact (List.append_nil _).symm
  | cons ht _ ih => rw [ih, ht.trace_eq, List.append_assoc]

/-- The history at the end of a path is known, so a given end needs to agree in the other fields only. -/
theorem Path.of_eq (h : Path k s ev t) (hk : k = l) (hev : ev = ev') (hu : { t with trace := s.trace ++ ev' } = u) :
    Path l s ev' u := by
  subst hk hev hu
  rwa [← h.trace_eq]

/-- A path is a run under any reset input that asserts none for its steps. -/
theorem Path.run_with_resets (h : Path k s ev t) : ∀ rs : List Bool, NoReset k { s with resets := rs } →
    run k { s with resets := rs } = .next { t with resets := rs.drop k } := by
  induction h with
  | nil s => exact fun rs _ => rfl
  | cons ht _ ih =>
    intro rs hr
    rw [run_succ _ (step_of_transition hr.head (ht.with_resets rs.tail)), ih rs.tail (hr.tail rfl), List.drop_tail]

theorem Path.run_eq (h : Path k s ev t) (hr : NoReset k s) : run k s = .next { t with resets := s.resets.drop k } :=
  h.run_with_resets s.resets hr

end Sys2Proof.Machine
end

/-! ## The levels of the coming samples (10_state.md R32, assumption 1) -/

section
namespace Sys2Proof.Machine

variable {s : State}

/-- The levels the next `n` samples read: the fixed ones, then free draws. -/
def nextLevels (n : Nat) (s : State) : List Level :=
  s.dinIn.take n ++ (List.range' s.dinCount (n - s.dinIn.length)).map (Config.dinDraw s.cfg.dataPin)

/-- The count of the free draws after the next `n` samples. -/
def drawsAfter (n : Nat) (s : State) : Nat := s.dinCount + (n - s.dinIn.length)

theorem length_nextLevels (n : Nat) (s : State) : (nextLevels n s).length = n := by
  simp [nextLevels]
  omega

theorem nextLevels_zero (s : State) : nextLevels 0 s = [] := by simp [nextLevels]

theorem nextLevels_succ (n : Nat) (s : State) : nextLevels (n + 1) s = dinNow s :: nextLevels n (dinTaken s) := by
  cases h : s.dinIn with
  | nil => simp [nextLevels, dinNow_nil s h, dinTaken_dinCount_nil s h, h, List.range'_succ]
  | cons d ds => simp [nextLevels, dinNow_cons s h, dinTaken_dinCount_cons s h, h]

theorem drawsAfter_zero (s : State) : drawsAfter 0 s = s.dinCount := by simp [drawsAfter]

theorem drawsAfter_succ (n : Nat) (s : State) : drawsAfter (n + 1) s = drawsAfter n (dinTaken s) := by
  cases h : s.dinIn with
  | nil => simp [drawsAfter, dinTaken_dinCount_nil s h, h]; omega
  | cons d ds => simp [drawsAfter, dinTaken_dinCount_cons s h, h]

theorem nextLevels_of_fixed {ds more : List Level} (h : s.dinIn = ds ++ more) : nextLevels ds.length s = ds := by
  simp [nextLevels, h]

theorem drawsAfter_of_fixed {ds more : List Level} (h : s.dinIn = ds ++ more) :
    drawsAfter ds.length s = s.dinCount := by
  simp [drawsAfter, h]

end Sys2Proof.Machine
end

/-! ## Bit lists sent most significant bit first (41_read.md R66, R67) -/

section
namespace Sys2Proof.Machine

/-- The register after the samples `ds` are shifted in, oldest first. -/
def shiftInAll (v : Reading) (ds : List Level) : Reading := ds.foldl shiftIn v

theorem msbFirst_cons (d : Level) (ds : List Level) :
    msbFirst (d :: ds) = d.toNat * 2 ^ ds.length + msbFirst ds := by
  simp [msbFirst, List.zipIdx_succ, Function.comp_def, Nat.sub_sub, Nat.add_comm]

theorem msbFirst_append (a b : List Level) : msbFirst (a ++ b) = msbFirst a * 2 ^ b.length + msbFirst b := by
  induction a with
  | nil => simp [msbFirst]
  | cons d a ih =>
    rw [List.cons_append, msbFirst_cons, msbFirst_cons, ih, List.length_append, pow_add]
    ring

theorem msbFirst_lt (ds : List Level) : msbFirst ds < 2 ^ ds.length := by
  induction ds with
  | nil => simp [msbFirst]
  | cons d ds ih =>
    have hd : d.toNat * 2 ^ ds.length ≤ 1 * 2 ^ ds.length := Nat.mul_le_mul_right _ (by omega)
    rw [msbFirst_cons, List.length_cons, pow_succ]
    omega

theorem msbFirst_eq_sum (ds : List Level) :
    msbFirst ds = ∑ k ∈ Finset.range ds.length, (ds.getD k 0).toNat * 2 ^ (ds.length - 1 - k) := by
  induction ds with
  | nil => rfl
  | cons d ds ih =>
    rw [msbFirst_cons, ih, List.length_cons, Finset.sum_range_succ', Nat.add_comm]
    simp [Nat.sub_sub, Nat.add_comm]

/-- The first bit sent is the highest. -/
theorem testBit_msbFirst (ds : List Level) : ∀ k < ds.length,
    (msbFirst ds).testBit (ds.length - 1 - k) = decide (ds.getD k 0 = 1) := by
  induction ds with
  | nil => exact fun k hk => absurd hk (Nat.not_lt_zero k)
  | cons d ds ih =>
    intro k hk
    rw [msbFirst_cons, Nat.mul_comm, Nat.testBit_two_pow_mul_add _ (msbFirst_lt ds)]
    cases k with
    | zero => obtain rfl | rfl := BitVec.eq_zero_or_eq_one d <;> simp
    | succ k =>
      rw [List.length_cons] at hk
      rw [if_pos (by rw [List.length_cons]; omega), List.getD_cons_succ, ← ih k (by omega)]
      congr 1
      rw [List.length_cons]
      omega

theorem shiftInAll_toNat (ds : List Level) (v : Reading) :
    (shiftInAll v ds).toNat = (v.toNat * 2 ^ ds.length + msbFirst ds) % 2 ^ 24 := by
  induction ds generalizing v with
  | nil => simp [shiftInAll, msbFirst, Nat.mod_eq_of_lt v.isLt]
  | cons d ds ih =>
    have hcons : shiftInAll v (d :: ds) = shiftInAll (shiftIn v d) ds := rfl
    rw [hcons, ih, shiftIn_toNat, Nat.add_mod, Nat.mod_mul_mod, ← Nat.add_mod, msbFirst_cons, List.length_cons]
    ring_nf

/-- Into a cleared register the samples shift their own value. -/
theorem shiftInAll_zero (ds : List Level) : shiftInAll 0 ds = BitVec.ofNat 24 (msbFirst ds) :=
  BitVec.eq_of_toNat_eq (by simp [shiftInAll_toNat])

/-- The shift of a register, written with the word operations (41_read.md R66). -/
theorem shiftIn_eq_shiftLeft_or (v : Reading) (d : Level) : shiftIn v d = (v <<< 1) ||| d.setWidth 24 := by
  refine BitVec.eq_of_getLsbD_eq fun i hi => ?_
  rw [shiftIn, BitVec.getLsbD_append]
  cases i with
  | zero => simp
  | succ i => simpa [show i < 23 by omega] using fun _ => hi

/-- The groups of eight, in a row, are the 24 samples. -/
theorem groups_append {ds : List Level} (h : ds.length = 24) : groupOf 0 ds ++ (groupOf 1 ds ++ groupOf 2 ds) = ds := by
  have hlast : (ds.drop 16).take 8 = ds.drop 16 := List.take_of_length_le (by simp [h])
  have hmid : (ds.drop 8).take 8 ++ ds.drop 16 = ds.drop 8 := by
    simpa using List.take_append_drop 8 (ds.drop 8)
  change ds.take 8 ++ ((ds.drop 8).take 8 ++ (ds.drop 16).take 8) = ds
  rw [hlast, hmid, List.take_append_drop]

/-- 24 bits are the values of their three groups, side by side (20_memory.md R36). -/
theorem msbFirst_eq_groups {ds : List Level} (h : ds.length = 24) :
    msbFirst ds = (msbFirst (groupOf 0 ds) <<< 16) ||| (msbFirst (groupOf 1 ds) <<< 8) ||| msbFirst (groupOf 2 ds) := by
  have hlen (j : Nat) (hj : j ≤ 2) : (groupOf j ds).length = 8 := by
    simp [groupOf, literals, h]
    omega
  have h1 := msbFirst_lt (groupOf 1 ds)
  have h2 := msbFirst_lt (groupOf 2 ds)
  rw [hlen 1 (by decide)] at h1
  rw [hlen 2 (by decide)] at h2
  conv_lhs => rw [← groups_append h]
  rw [msbFirst_append, msbFirst_append, List.length_append, hlen 1 (by decide), hlen 2 (by decide), Nat.or_assoc,
    ← Nat.shiftLeft_add_eq_or_of_lt h2, ← Nat.shiftLeft_add_eq_or_of_lt (by omega),
    Nat.shiftLeft_eq, Nat.shiftLeft_eq]

end Sys2Proof.Machine
end

/-! ## The micro-steps of a read, whole state (41_read.md R63 to R72) -/

section
namespace Sys2Proof.Machine

variable {s t : State} {ev : List Event}

/-- Settles O18: the acceptance step has no branch. -/
theorem readBegins : Obligations.ReadBegins := fun s => ⟨exec_read s, rfl⟩

/-- Settles O20: each step is its transition; the sample is the first fixed level, or the free one if none is fixed. -/
theorem dataPulseSteps : Obligations.DataPulseSteps := by
  intro s hr
  refine ⟨fun hp => step_of_transition hr (.dataRise hp), fun d ds hp hd => ?_, fun hp hd => ?_,
    fun hp hb => step_of_transition hr (.dataFallLast hp hb),
    fun hp hb => step_of_transition hr (.dataFallMore hp hb)⟩
  · rw [step_of_transition hr (.dataSample hp)]
    simp [shiftIn_eq_shiftLeft_or, dinNow_cons s hd, dinTaken_dinCount_cons s hd, hd]
  · rw [step_of_transition hr (.dataSample hp)]
    simp [shiftIn_eq_shiftLeft_or, dinNow_nil s hd, dinTaken_dinCount_nil s hd, hd]

theorem finishResponse_read (h : s.cur = .read) : finishResponse s = sext32 s.shift := by simp [finishResponse, h]

theorem finishResponse_setgain (h : s.cur = .setgain) : finishResponse s = 0 := by simp [finishResponse, h]

/-- Settles O21: each step is its transition; the response is the one of the command in progress. -/
theorem gainPulseStepsAndFinish : Obligations.GainPulseStepsAndFinish := by
  intro s hr
  refine ⟨fun hp => step_of_transition hr (.gainRise hp), fun hp hg => step_of_transition hr (.gainFallMore hp hg),
    fun hp hg hc => ?_, fun hp hg hc => ?_⟩
  · have hfin : finishResponse (resetTaken s) = s.shift.signExtend 32 := finishResponse_read (by exact hc)
    rw [step_of_transition hr (.gainFallLast hp hg), hfin]
    rfl
  · have hfin : finishResponse (resetTaken s) = 0 := finishResponse_setgain (by exact hc)
    rw [step_of_transition hr (.gainFallLast hp hg), hfin]
    rfl

/-! ### The frame of the micro-steps -/

theorem Transition.cur_eq_of_busy (h : Transition s ev t) (hb : s.phase ≠ .idle) : t.cur = s.cur := by
  cases h with
  | read hp | setgain hp | setgainOther hp => exact absurd hp hb
  | _ => rfl

/-- No transition writes the line directions or the parameters (10_state.md R17, 00_scope.md R7). -/
theorem Transition.wiring_eq (h : Transition s ev t) :
    t.sckDir = s.sckDir ∧ t.dinDir = s.dinDir ∧ t.cfg = s.cfg := by cases h <;> exact ⟨rfl, rfl, rfl⟩

theorem Transition.sckl_eq_of_samples (h : Transition s ev t) (hp : s.phase = .wait ∨ s.phase = .dsamp) :
    t.sckl = s.sckl := by
  cases h with
  | ready | read | setgainSkip | illegal | pollReady | pollBusy | dataSample => rfl
  | _ => simp_all

theorem Transition.shift_eq (h : Transition s ev t) (hw : s.phase ≠ .wait) (hd : s.phase ≠ .dsamp) :
    t.shift = s.shift ∧ t.bitcnt = s.bitcnt := by
  cases h with
  | pollReady hp => exact absurd hp hw
  | dataSample hp => exact absurd hp hd
  | _ => exact ⟨rfl, rfl⟩

theorem Transition.pulsecnt_eq (h : Transition s ev t) (hd : s.phase ≠ .dfall) (hg : s.phase ≠ .gfall) :
    t.pulsecnt = s.pulsecnt := by
  cases h with
  | dataFallLast hp => exact absurd hp hd
  | gainFallLast hp | gainFallMore hp => exact absurd hp hg
  | _ => rfl

/-- A busy engine responds in `GFALL` and `PDHI` only. -/
theorem Transition.rsp_eq_of_busy (h : Transition s ev t) (hb : s.phase ≠ .idle) (hg : s.phase ≠ .gfall)
    (hh : s.phase ≠ .pdhi) : t.rsp = s.rsp := by
  cases h with
  | pdownHigh hp | pup hp | ready hp | setgainSkip hp | illegal hp => exact absurd hp hb
  | gainFallLast hp => exact absurd hp hg
  | pdhi hp => exact absurd hp hh
  | _ => rfl

/-- Settles O46: a busy engine accepts no word, and each register is written by the transitions of its own phases. -/
theorem microStepFrames : Obligations.MicroStepFrames := by
  intro s hb hr
  obtain ⟨ev, t, h⟩ := Transition.exists_of_busy (s := resetTaken s) hb
  have haccept : acceptedOf ev = [] := h.acceptedOf_busy hb
  have hgain := h.gainp_eq
  have hill := h.ill_eq
  have hbad := h.badcmd_eq
  rw [haccept] at hgain hill hbad
  obtain ⟨hsck, hdin, hcfg⟩ := h.wiring_eq
  refine ⟨t, step_of_transition hr h, hgain, by simpa using hill, hbad, h.cur_eq_of_busy hb, hsck, hdin, hcfg,
    h.offers_eq_of_busy hb, h.sckl_eq_of_samples, fun hw hd => ?_, h.pulsecnt_eq, h.rsp_eq_of_busy hb⟩
  have hs : samplesOf ev = [] := h.samplesOf_eq_nil hw hd fun hi => absurd hi hb
  obtain ⟨hshift, hbit⟩ := h.shift_eq hw hd
  exact ⟨hshift, hbit, (h.samplesOf_eq_nil_iff.mp hs).1⟩

end Sys2Proof.Machine
end

/-! ## The readings of the converter (41_read.md R71, R75) -/

section
namespace Sys2Proof.Machine

theorem sext32_toInt (v : Reading) : (sext32 v).toInt = v.toInt :=
  BitVec.toInt_signExtend_of_le (by decide)

theorem toInt_reading_range (v : Reading) : -8388608 ≤ v.toInt ∧ v.toInt ≤ 8388607 := by
  have hlo := BitVec.le_toInt v
  have hhi := BitVec.toInt_lt (x := v)
  norm_num at hlo hhi
  omega

/-- The response word of a reading: the same number, with the eight upper bits set where the sign bit is. -/
theorem sext32_toNat (v : Reading) : (sext32 v).toNat = v.toNat + if v.msb then 0xFF000000 else 0 := by
  have hv := v.isLt
  rw [sext32, BitVec.toNat_signExtend, BitVec.toNat_setWidth, Nat.mod_eq_of_lt (by omega)]

/-- Settles O23: the extension keeps the number the 24 bits mean, and the sign bit halves the range of the word. -/
theorem signExtensionOfAReading : Obligations.SignExtensionOfAReading := by
  intro v
  have hmsb : v.getLsbD 23 = v.msb := v.msb_eq_getLsbD_last.symm
  obtain ⟨hlo, hhi⟩ := toInt_reading_range v
  rw [sext32_toInt, sext32_toNat, hmsb]
  refine ⟨v.toInt_eq_msb_cond, hlo, hhi, fun hb => ?_, fun hb => ?_⟩
  · have hhalf := BitVec.msb_eq_false_iff_two_mul_lt.mp hb
    rw [hb, if_neg Bool.false_ne_true]
    omega
  · have hhalf := BitVec.msb_eq_true_iff_two_mul_ge.mp hb
    rw [hb, if_pos rfl]
    omega

/-- Settles O24: the pattern of a number in the range means that number, and two patterns of one number are the same. -/
theorem readingsAreABijection : Obligations.ReadingsAreABijection := by
  refine ⟨fun n hlo hhi => ⟨BitVec.ofInt 24 n, ?_, fun v hv => ?_⟩, by decide, by decide, by decide, by decide⟩
  · simp only [sext32_toInt]
    exact BitVec.toInt_ofInt_eq_self (by decide) (by norm_num; omega) (by norm_num; omega)
  · simp only [sext32_toInt] at hv
    rw [← hv, BitVec.ofInt_toInt]

end Sys2Proof.Machine
end

/-! ## A whole read (41_read.md R64 to R73) -/

section
namespace Sys2Proof.Machine

variable {s : State} {ds more : List Level}

/-! ### The polls -/

/-- A poll of a fixed level 1. -/
theorem Transition.pollBusy_fixed (hp : s.phase = .wait) (hd : s.dinIn = 1 :: ds) :
    Transition s [.s 1] { s with trace := s.trace ++ [.s 1], dinIn := ds } := by
  have h0 : dinNow s = 1 := dinNow_cons s hd
  have h := Transition.pollBusy hp (by rw [h0]; decide)
  simpa [h0, hd, dinTaken_dinCount_cons s hd] using h

/-- The polls that read 1 change nothing but the history and the levels used up (R64). -/
theorem path_busyPolls (k : Nat) : ∀ {s : State}, s.phase = .wait → s.dinIn = List.replicate k 1 ++ more →
    Path k s (List.replicate k (.s 1)) { s with trace := s.trace ++ List.replicate k (.s 1), dinIn := more } := by
  induction k with
  | zero =>
    intro s hp hd
    have hmore : s.dinIn = more := hd
    subst hmore
    simpa using Path.nil s
  | succ k ih =>
    intro s hp hd
    have h := Path.cons (Transition.pollBusy_fixed hp hd) (ih (by exact hp) rfl)
    simpa [List.replicate_succ] using h

/-- Settles O19: one poll is its transition, and `k` of them that read 1 are the path of the busy polls. -/
theorem pollSpinsUntilReady : Obligations.PollSpinsUntilReady := by
  intro s hp
  refine ⟨fun hr h0 => ⟨_, step_of_transition hr.head (.pollReady hp h0), ?_⟩,
    fun hr h1 => ⟨_, step_of_transition hr.head (.pollBusy hp (by simp [h1])), ?_⟩,
    fun k ds hr hd => (path_busyPolls k hp hd).run_eq hr⟩
  · simp [h0]
  · simp [h1]

/-! ### The data pulses -/

/-- The high edge of a data pulse and its sample (R65, R66). -/
theorem path_dataBit (hp : s.phase = .drise) :
    Path 2 s [.w 1, .s (dinNow s)]
      { s with
        sckl := 1, shift := shiftIn s.shift (dinNow s), bitcnt := s.bitcnt + 1, phase := .dfall
        trace := s.trace ++ [.w 1, .s (dinNow s)], dinIn := s.dinIn.tail, dinCount := (dinTaken s).dinCount } :=
  (Path.cons (.dataRise hp) (.cons (.dataSample rfl) (.nil _))).of_eq rfl rfl rfl

/-- The data pulses from bit `24 - (n + 1)` on to the last (R65 to R68). -/
theorem path_dataPulses (n : Nat) : ∀ {s : State}, s.phase = .drise → s.bitcnt.toNat + (n + 1) = 24 →
    Path (3 * (n + 1)) s (dataPulses (nextLevels (n + 1) s))
      { s with
        sckl := 0, shift := shiftInAll s.shift (nextLevels (n + 1) s), bitcnt := 24, pulsecnt := 0, phase := .grise
        trace := s.trace ++ dataPulses (nextLevels (n + 1) s), dinIn := s.dinIn.drop (n + 1)
        dinCount := drawsAfter (n + 1) s } := by
  induction n with
  | zero =>
    intro s hp hb
    have hlast : s.bitcnt + 1 = 24 := BitVec.eq_of_toNat_eq (by simp; omega)
    have h := (path_dataBit hp).append (.cons (.dataFallLast rfl hlast) (.nil _))
    rw [nextLevels_succ, nextLevels_zero, drawsAfter_succ, drawsAfter_zero, ← List.drop_tail, ← hlast]
    exact h.of_eq rfl rfl rfl
  | succ n ih =>
    intro s hp hb
    have hsucc : (s.bitcnt + 1).toNat = s.bitcnt.toNat + 1 := by simp; omega
    have hmore : s.bitcnt + 1 ≠ 24 := fun h => by
      have h24 : (s.bitcnt + 1).toNat = 24 := congrArg BitVec.toNat h
      omega
    have h := (path_dataBit hp).append (.cons (.dataFallMore rfl hmore) (ih rfl (by simp only; omega)))
    rw [nextLevels_succ, drawsAfter_succ, ← List.drop_tail]
    exact h.of_eq (by omega) rfl rfl

/-- The poll that reads 0 and the 24 data pulses, on any levels (R64 to R68). -/
theorem path_readout (hp : s.phase = .wait) (h0 : dinNow s = 0) :
    Path 73 s (.s 0 :: dataPulses (nextLevels 24 (dinTaken s)))
      { s with
        sckl := 0, shift := shiftInAll 0 (nextLevels 24 (dinTaken s)), bitcnt := 24, pulsecnt := 0, phase := .grise
        trace := s.trace ++ .s 0 :: dataPulses (nextLevels 24 (dinTaken s)), dinIn := s.dinIn.tail.drop 24
        dinCount := drawsAfter 24 (dinTaken s) } := by
  have h := Path.cons (.pollReady hp h0) (path_dataPulses 23 rfl rfl)
  rw [h0] at h
  exact h.of_eq rfl rfl rfl

/-- Settles O22: the register is the value of the list of the samples, and so are the sum, the bits and the groups. -/
theorem shiftRegisterHoldsTheSamples : Obligations.ShiftRegisterHoldsTheSamples := by
  intro s hp h0 hr
  have hlen := length_nextLevels 24 (dinTaken s)
  have hlt := msbFirst_lt (nextLevels 24 (dinTaken s))
  rw [hlen] at hlt
  refine ⟨_, nextLevels 24 (dinTaken s), (path_readout hp h0).run_eq hr, hlen, rfl, rfl, rfl, rfl, ?_⟩
  simp only [shiftInAll_zero, BitVec.toNat_ofNat, Nat.mod_eq_of_lt hlt]
  refine ⟨?_, fun k hk => ?_, msbFirst_eq_groups hlen⟩
  · rw [msbFirst_eq_sum, hlen]
  · rw [BitVec.getLsbD_ofNat, ← testBit_msbFirst _ k (by omega), hlen]
    simp
    omega

/-! ### The gain pulses -/

/-- The gain pulses still to come, and the end of the read (R69, R70, R72). -/
theorem path_gainPulses {v : RspWord} (n : Nat) : ∀ {s : State}, s.phase = .grise →
    s.pulsecnt.toNat + (n + 1) = s.gainp.toNat → finishResponse s = v →
    Path (2 * (n + 1)) s (gainPulses (n + 1) ++ [.r v])
      { s with
        sckl := 0, pulsecnt := s.gainp, rsp := v, phase := .idle
        trace := s.trace ++ (gainPulses (n + 1) ++ [.r v]) } := by
  induction n with
  | zero =>
    intro s hp hg hv
    have hsucc := pulsecnt_succ_toNat (p := s.pulsecnt) (g := s.gainp) (by omega)
    have hlast : s.pulsecnt + 1 = s.gainp := BitVec.eq_of_toNat_eq (by omega)
    have h := Path.cons (.gainRise hp) (.cons (.gainFallLast rfl hlast) (.nil _))
    subst hv
    simp only [hlast] at h
    exact h.of_eq rfl rfl rfl
  | succ n ih =>
    intro s hp hg hv
    have hsucc := pulsecnt_succ_toNat (p := s.pulsecnt) (g := s.gainp) (by omega)
    have hmore : s.pulsecnt + 1 ≠ s.gainp := fun h => by rw [h] at hsucc; omega
    have h := Path.cons (.gainRise hp) (.cons (.gainFallMore rfl hmore) (ih rfl (by simp only; omega) hv))
    exact h.of_eq (by omega) rfl rfl

/-! ### The whole sequence -/

/-- The poll that reads 0 and the 24 data pulses, on fixed levels. -/
theorem path_readout_fixed (hp : s.phase = .wait) (hlen : ds.length = 24) (hd : s.dinIn = 0 :: (ds ++ more)) :
    Path 73 s (.s 0 :: dataPulses ds)
      { s with
        sckl := 0, shift := BitVec.ofNat 24 (msbFirst ds), bitcnt := 24, pulsecnt := 0, phase := .grise
        trace := s.trace ++ .s 0 :: dataPulses ds, dinIn := more } := by
  have hrest : (dinTaken s).dinIn = ds ++ more := by simp [hd]
  have hnext := nextLevels_of_fixed hrest
  have hdraws := drawsAfter_of_fixed hrest
  have hdrop : s.dinIn.tail.drop 24 = more := by simp [hd, ← hlen]
  rw [hlen] at hnext hdraws
  have h := path_readout hp (dinNow_cons s hd)
  rwa [hnext, hdraws, hdrop, shiftInAll_zero, dinTaken_dinCount_cons s hd] at h

/-- A read sequence on fixed levels, from its first poll to its response, for either command (R73). -/
theorem path_readSequence {k : Nat} {v : RspWord} (hp : s.phase = .wait) (hg : s.gainp ≠ 0) (hlen : ds.length = 24)
    (hd : s.dinIn = List.replicate k 1 ++ 0 :: ds ++ more)
    (hv : finishResponse { s with shift := BitVec.ofNat 24 (msbFirst ds) } = v) :
    Path (73 + k + 2 * s.gainp.toNat) s (readSequence k ds s.gainp.toNat v)
      { s with
        sckl := 0, rsp := v, phase := .idle, shift := BitVec.ofNat 24 (msbFirst ds), bitcnt := 24
        pulsecnt := s.gainp, trace := s.trace ++ readSequence k ds s.gainp.toNat v, dinIn := more } := by
  have hpos : s.gainp.toNat ≠ 0 := fun h => hg (BitVec.eq_of_toNat_eq h)
  obtain ⟨n, hn⟩ := Nat.exists_eq_succ_of_ne_zero hpos
  rw [List.append_assoc] at hd
  have hgain : (0 : BitVec 2).toNat + (n + 1) = s.gainp.toNat := (Nat.zero_add _).trans hn.symm
  have h := (path_busyPolls k hp hd).append ((path_readout_fixed (by exact hp) hlen rfl).append
    (path_gainPulses n rfl hgain hv))
  rw [hn]
  exact h.of_eq (by omega) (by simp [readSequence, polls]) rfl

theorem length_dataPulses (ds : List Level) : (dataPulses ds).length = 3 * ds.length := by
  simp [dataPulses, dataPulse, Nat.mul_comm]

theorem length_gainPulses (n : Nat) : (gainPulses n).length = 2 * n := by
  simp [gainPulses, Nat.mul_comm]

theorem length_readSequence (k : Nat) (ds : List Level) (g : Nat) (v : RspWord) :
    (readSequence k ds g v).length = k + 1 + 3 * ds.length + 2 * g + 1 := by
  simp [readSequence, polls, length_dataPulses, length_gainPulses]
  omega

/-- Settles O25: the acceptance, then the read sequence, or the busy polls while none reads 0. -/
theorem readAppendsItsSequence : Obligations.ReadAppendsItsSequence := by
  intro s os hp hg ho
  have haccept := Transition.read hp ho rfl
  refine ⟨fun k ds more hlen hd hr => ⟨?_, ?_⟩, fun k more hd hr => ?_⟩
  · have h := Path.cons haccept (path_readSequence rfl hg hlen hd (finishResponse_read rfl))
    have hsteps : 74 + k + 2 * s.gainp.toNat = 73 + k + 2 * s.gainp.toNat + 1 := by omega
    exact (h.of_eq hsteps.symm rfl rfl).run_eq hr
  · rw [length_readSequence, hlen]
    omega
  · have h := (Path.cons haccept (path_busyPolls k rfl hd)).of_eq (Nat.add_comm k 1) rfl rfl
    exact ⟨_, h.run_eq hr, rfl, rfl⟩

end Sys2Proof.Machine
end

/-! ## Gain selection (42_gain_select.md R77, R78, R82) -/

section
namespace Sys2Proof.Machine

variable {s : State} {w : CmdWord} {os : List CmdWord} {code : BitVec 32} {g : BitVec 2}

/-- Settles O27: the three codes are recognised and no other is; each branch of the rule has its whole state. -/
theorem setgainAcceptance : Obligations.SetgainAcceptance := by
  intro s
  exact ⟨exec_setgain_recognised gainPulsesOf_128, exec_setgain_recognised gainPulsesOf_64,
    exec_setgain_recognised gainPulsesOf_32,
    fun code h1 h2 h3 => exec_setgain_perform (gainPulsesOf_other h1 h2 h3),
    fun code h1 h2 h3 => exec_setgain_skip (gainPulsesOf_other h1 h2 h3)⟩

/-- The acceptance of a `SETGAIN` that performs its tail, with either kind of code (R77). -/
theorem Transition.setgain_performs (hp : s.phase = .idle) (ho : s.offers = w :: os)
    (hd : decode w = .ok (.setgain code)) (hg : g = (gainPulsesOf code).getD s.gainp)
    (ht : (gainPulsesOf code).isSome ∨ s.cfg.setgainTail = .perform) :
    Transition s [.c w, .w 0]
      { s with
        gainp := g, sckl := 0, cur := .setgain, phase := .wait, trace := s.trace ++ [.c w, .w 0], offers := os } := by
  subst hg
  cases hc : gainPulsesOf code with
  | some g => exact .setgain hp ho hd hc
  | none => exact .setgainOther hp ho hd hc (by simpa [hc] using ht)

theorem gainPulsesOf_getD_ne_zero (hs : s.gainp ≠ 0) : (gainPulsesOf code).getD s.gainp ≠ 0 := by
  cases hc : gainPulsesOf code with
  | none => exact hs
  | some g =>
    rw [Option.getD_some]
    obtain rfl | rfl | rfl := gainPulsesOf_legal hc <;> decide

/-- Settles O28: the acceptance, then the read sequence with the new `GAINP`; under `SKIP` the acceptance alone. -/
theorem setgainAppendsItsSequence : Obligations.SetgainAppendsItsSequence := by
  intro s os w code g hp hs ho hd hg
  have hpos : g ≠ 0 := hg ▸ gainPulsesOf_getD_ne_zero hs
  refine ⟨fun k ds more ht hlen hdin hr => ⟨?_, ?_⟩, fun hc hf hr => ?_⟩
  · have h := Path.cons (Transition.setgain_performs hp ho hd hg ht)
      (path_readSequence rfl hpos hlen hdin (finishResponse_setgain rfl))
    have hsteps : 74 + k + 2 * g.toNat = 73 + k + 2 * g.toNat + 1 := by omega
    exact (h.of_eq hsteps.symm rfl rfl).run_eq hr
  · rw [length_readSequence, hlen]
    omega
  · rw [step_of_transition hr (.setgainSkip hp ho hd hc hf)]
    simp [hp]

end Sys2Proof.Machine
end

/-! ## Reads of a peer that keeps its contract (60_exceptions.md R91 to R94, assumption 7) -/

section
namespace Sys2Proof.Machine

variable {e : State} {p q : Peer} {v : Reading} {script : List PeerInput}

/-! ### One step of the bench -/

theorem step_of_transition_of_nil {s t : State} {ev : List Event} (hr : s.resets = []) (h : Transition s ev t) :
    step s = .next t :=
  step_of_transition (resetAsserted_nil s hr) (by rwa [resetTaken_nil s hr])

/-- A transition of the engine on the peer's level is a step of the bench where no reset comes. -/
theorem benchStep_of_transition {b : Bench} {ev : List Event} {e' : State} (hr : b.engine.resets = [])
    (h : Transition { b.engine with dinIn := (peerDin b.peerNow).toList } ev e')
    (hq : peerClock (pulseOf b.engine) e'.sckl b.peerNow = q) :
    benchStep b = .next { engine := { e' with dinIn := [] }, peer := q, script := b.script.tail } := by
  rw [benchStep_next (step_of_transition_of_nil hr h), peerAfter, resetAsserted_nil _ hr, if_neg Bool.false_ne_true, hq]

/-- What the steps of a command in progress leave of the engine: the command, its `GAINP`, and no reset to come. -/
structure SameCommand (e e' : State) : Prop where
  cur_eq : e'.cur = e.cur
  gainp_eq : e'.gainp = e.gainp
  resets_eq : e'.resets = e.resets

theorem SameCommand.trans {a b c : State} (h : SameCommand a b) (h' : SameCommand b c) : SameCommand a c :=
  ⟨h'.cur_eq.trans h.cur_eq, h'.gainp_eq.trans h.gainp_eq, h'.resets_eq.trans h.resets_eq⟩

/-! ### The polls -/

/-- The poll `k + 1` is the first to find a result of the peer `p` on the line, the result `v`, and the peer is then `q`:
it is latched already, or its conversion ends behind `k` polls (R91, R93). -/
inductive Awaits (v : Reading) (p : Peer) : Nat → List PeerInput → Peer → Prop where
  | latched (h : p.phase = .ready v) : Awaits v p 0 [] p
  | converting (k : Nat) (h : p.phase = .converting) :
      Awaits v p k (List.replicate k .quiet ++ [.finish v]) { p with phase := .ready v }
  | trailing (k : Nat) {g : Nat} (h : p.phase = .trailing g) :
      Awaits v p k (List.replicate k .quiet ++ [.finish v]) { p with phase := .ready v, convMode := p.nextMode }

/-- The engine has seen readiness and begins the data pulses with a cleared register (41_read.md R64). -/
structure SawReady (e : State) : Prop where
  phase_eq : e.phase = .drise
  bitcnt_eq : e.bitcnt = 0
  shift_eq : e.shift = 0

/-- A poll of a peer with no result on the line. -/
theorem benchStep_pollBusy (hp : e.phase = .wait) (hr : e.resets = []) (hs : e.sckl = p.sck) (hd : peerDin p = some 1) :
    ∃ e', benchStep ⟨e, p, .quiet :: script⟩ = .next ⟨e', p, script⟩ ∧ SameCommand e e' ∧ e'.phase = .wait ∧
      e'.sckl = e.sckl := by
  have hdin : dinNow { e with dinIn := (peerDin p).toList } ≠ 0 := by simp [dinNow, hd]
  exact ⟨_, benchStep_of_transition (b := ⟨e, p, .quiet :: script⟩) hr (.pollBusy hp hdin) (peerClock_same _ hs),
    ⟨rfl, rfl, rfl⟩, hp, rfl⟩

/-- The poll that finds the result. -/
theorem benchStep_pollReady {b : Bench} (hp : b.engine.phase = .wait) (hr : b.engine.resets = [])
    (hs : b.engine.sckl = b.peerNow.sck) (hq : b.peerNow.phase = .ready v) :
    ∃ e', benchStep b = .next ⟨e', b.peerNow, b.script.tail⟩ ∧ SameCommand b.engine e' ∧ SawReady e' := by
  have hdin : dinNow { b.engine with dinIn := (peerDin b.peerNow).toList } = 0 := by rw [peerDin, hq]; rfl
  exact ⟨_, benchStep_of_transition hr (.pollReady hp hdin) (peerClock_same _ hs), ⟨rfl, rfl, rfl⟩, ⟨rfl, rfl, rfl⟩⟩

/-- The polls of a peer that converts, up to the end of its conversion. -/
theorem benchRun_pollsToFinish (hd : peerDin p = some 1) (hfin : peerFinish false v p = q) (hq : q.phase = .ready v)
    (hsck : q.sck = p.sck) (k : Nat) : ∀ {e : State}, e.phase = .wait → e.resets = [] → e.sckl = p.sck →
    ∃ e', benchRun (k + 1) ⟨e, p, List.replicate k .quiet ++ [.finish v]⟩ = .next ⟨e', q, []⟩ ∧ SameCommand e e' ∧
      SawReady e' := by
  induction k with
  | zero =>
    intro e hp hr hs
    have hnow : (Bench.mk e p [.finish v]).peerNow = q := by
      rw [← hfin]
      simp [Bench.peerNow, peerInput, inMidRead, hp]
    obtain ⟨e', h, hsame, hready⟩ := benchStep_pollReady (b := ⟨e, p, [.finish v]⟩) hp hr
      (by rw [hnow, hsck]; exact hs) (by rw [hnow]; exact hq)
    rw [hnow] at h
    exact ⟨e', benchRun_succ 0 h, hsame, hready⟩
  | succ k ih =>
    intro e hp hr hs
    obtain ⟨e₁, h₁, hsame₁, hp₁, hs₁⟩ :=
      benchStep_pollBusy (script := List.replicate k .quiet ++ [.finish v]) hp hr hs hd
    obtain ⟨e', h, hsame, hready⟩ := ih hp₁ (hsame₁.resets_eq.trans hr) (hs₁.trans hs)
    exact ⟨e', (benchRun_succ (k + 1) h₁).trans h, hsame₁.trans hsame, hready⟩

theorem Awaits.phase_eq {k : Nat} (h : Awaits v p k script q) : q.phase = .ready v := by
  cases h with
  | latched h => exact h
  | converting | trailing => rfl

theorem Awaits.sck_eq {k : Nat} (h : Awaits v p k script q) : q.sck = p.sck := by cases h <;> rfl

/-- The polls find the awaited result (41_read.md R64). -/
theorem Awaits.benchRun_polls {k : Nat} (h : Awaits v p k script q) (hp : e.phase = .wait) (hr : e.resets = [])
    (hs : e.sckl = p.sck) :
    ∃ e', benchRun (k + 1) ⟨e, p, script⟩ = .next ⟨e', q, []⟩ ∧ SameCommand e e' ∧ SawReady e' := by
  cases h with
  | latched h =>
    obtain ⟨e', hstep, hsame, hready⟩ := benchStep_pollReady (b := ⟨e, p, []⟩) hp hr hs h
    exact ⟨e', benchRun_succ 0 hstep, hsame, hready⟩
  | converting k h =>
    exact benchRun_pollsToFinish (by simp [peerDin, h]) (peerFinish_converting p false v h) rfl rfl k hp hr hs
  | trailing k h =>
    exact benchRun_pollsToFinish (by simp [peerDin, h]) (peerFinish_trailing p v h) rfl rfl k hp hr hs

/-! ### The data pulses -/

/-- A step between two inputs of the outside. -/
theorem benchStep_quiet {ev : List Event} {e' : State} (hr : e.resets = [])
    (h : Transition { e with dinIn := (peerDin p).toList } ev e') (hq : peerClock (pulseOf e) e'.sckl p = q) :
    benchStep ⟨e, p, []⟩ = .next ⟨{ e' with dinIn := [] }, q, []⟩ :=
  benchStep_of_transition hr h hq

/-- The high edge of a data pulse, at which the peer becomes `q`, and the sample of the level `d` (41_read.md R65, R66). -/
theorem benchRun_dataBit {d : Level} (hp : e.phase = .drise) (hr : e.resets = []) (hs : p.sck = 0)
    (hq : peerRise (.data (e.bitcnt.toNat + 1)) p = q)
    (hd : dinNow { e with dinIn := (peerDin { q with sck := 1 }).toList } = d) :
    ∃ e', benchRun 2 ⟨e, p, []⟩ = .next ⟨e', { q with sck := 1 }, []⟩ ∧ SameCommand e e' ∧ e'.phase = .dfall ∧
      e'.shift = shiftIn e.shift d ∧ e'.bitcnt = e.bitcnt + 1 := by
  have hpulse : pulseOf e = .data (e.bitcnt.toNat + 1) := by simp [pulseOf, hp]
  have hrise : peerClock (pulseOf e) 1 p = { q with sck := 1 } := by rw [hpulse, peerClock_rise _ hs, hq]
  subst hd
  exact ⟨_, (benchRun_succ 1 (benchStep_quiet hr (.dataRise hp) hrise)).trans
    (benchRun_succ 0 (benchStep_quiet hr (.dataSample rfl) (peerClock_same _ rfl))), ⟨rfl, rfl, rfl⟩, rfl, rfl, rfl⟩

/-- One data pulse: its high edge, the sample and its low edge (41_read.md R65 to R68). -/
theorem benchRun_dataPulse {d : Level} (hp : e.phase = .drise) (hr : e.resets = []) (hs : p.sck = 0)
    (hq : peerRise (.data (e.bitcnt.toNat + 1)) p = q) (hawake : q.phase ≠ .asleep)
    (hd : dinNow { e with dinIn := (peerDin { q with sck := 1 }).toList } = d) :
    ∃ e', benchRun 3 ⟨e, p, []⟩ = .next ⟨e', { q with sck := 0 }, []⟩ ∧ SameCommand e e' ∧
      e'.shift = shiftIn e.shift d ∧ e'.bitcnt = e.bitcnt + 1 ∧
      (e.bitcnt + 1 = 24 → e'.phase = .grise ∧ e'.pulsecnt = 0) ∧ (e.bitcnt + 1 ≠ 24 → e'.phase = .drise) := by
  obtain ⟨e₁, hbit, hsame, hp₁, hshift, hcnt⟩ := benchRun_dataBit hp hr hs hq hd
  have hr₁ := hsame.resets_eq.trans hr
  have hfall : peerClock (pulseOf e₁) 0 { q with sck := 1 } = { q with sck := 0 } := by
    rw [peerClock_fall _ rfl, peerFall_awake (by exact hawake)]
  rw [benchRun_add 2 1 hbit]
  by_cases hb : e₁.bitcnt = 24
  · exact ⟨_, benchRun_succ 0 (benchStep_quiet hr₁ (.dataFallLast hp₁ hb) hfall),
      hsame.trans ⟨rfl, rfl, rfl⟩, hshift, hcnt, fun _ => ⟨rfl, rfl⟩, fun h => absurd (hcnt.symm.trans hb) h⟩
  · exact ⟨_, benchRun_succ 0 (benchStep_quiet hr₁ (.dataFallMore hp₁ hb) hfall),
      hsame.trans ⟨rfl, rfl, rfl⟩, hshift, hcnt, fun h => absurd (hcnt.trans h) hb, fun _ => rfl⟩

/-- The peer stands at data pulse `n + 1`: it has sent `n` bits of `v` (60_exceptions.md R92). -/
def AtDataPulse (v : Reading) (n : Nat) (p : Peer) : Prop := (n = 0 ∧ p.phase = .ready v) ∨ p.phase = .shifting v n

theorem AtDataPulse.peerRise_eq {n : Nat} (h : AtDataPulse v n p) :
    peerRise (.data (n + 1)) p = { p with phase := .shifting v (n + 1) } := by
  obtain ⟨rfl, h⟩ | h := h
  · exact peerRise_first h
  · exact peerRise_data h

/-- With the bits of `v` above bit `n` in the register, the next bit shifted in is bit `n`. -/
theorem shiftIn_nextBit (v : Reading) (n : Nat) : shiftIn (v >>> (n + 1)) (v.extractLsb' n 1) = v >>> n := by
  have hv := v.isLt
  have hle : v.toNat / 2 ^ n ≤ v.toNat := Nat.div_le_self _ _
  apply BitVec.eq_of_toNat_eq
  rw [shiftIn_toNat]
  simp only [BitVec.toNat_ushiftRight, BitVec.extractLsb'_toNat, Nat.shiftRight_eq_div_pow, pow_succ,
    ← Nat.div_div_eq_div_mul]
  omega

/-- The data pulse of bit `n` of the result (41_read.md R66, 60_exceptions.md R92). -/
theorem benchRun_resultBit {n : Nat} (hp : e.phase = .drise) (hr : e.resets = []) (hs : p.sck = 0)
    (hb : e.bitcnt.toNat + (n + 1) = 24) (hat : AtDataPulse v e.bitcnt.toNat p) (hv : e.shift = v >>> (n + 1)) :
    ∃ e', benchRun 3 ⟨e, p, []⟩ = .next ⟨e', { p with phase := .shifting v (e.bitcnt.toNat + 1), sck := 0 }, []⟩ ∧
      SameCommand e e' ∧ e'.shift = v >>> n ∧ e'.bitcnt.toNat = e.bitcnt.toNat + 1 ∧
      (n = 0 → e'.phase = .grise ∧ e'.pulsecnt = 0) ∧ (n ≠ 0 → e'.phase = .drise) := by
  have hn : 24 - (e.bitcnt.toNat + 1) = n := by omega
  have hsucc : (e.bitcnt + 1).toNat = e.bitcnt.toNat + 1 := by simp; omega
  have hlast : e.bitcnt + 1 = 24 ↔ n = 0 := by
    rw [← BitVec.toNat_inj, hsucc]
    simp
    omega
  obtain ⟨e', hrun, hsame, hshift, hcnt, hgrise, hdrise⟩ :=
    benchRun_dataPulse (d := v.extractLsb' n 1) hp hr hs hat.peerRise_eq (by simp) (by simp [dinNow, peerDin, hn])
  rw [hlast] at hgrise
  rw [Ne, hlast] at hdrise
  exact ⟨e', hrun, hsame, by rw [hshift, hv, shiftIn_nextBit], by rw [hcnt, hsucc], hgrise, hdrise⟩

/-- The data pulses from bit `n` of the result down to bit 0, which shift the rest of it in. -/
theorem benchRun_dataPulses (n : Nat) : ∀ {e : State} {p : Peer}, e.phase = .drise → e.resets = [] → p.sck = 0 →
    e.bitcnt.toNat + (n + 1) = 24 → AtDataPulse v e.bitcnt.toNat p → e.shift = v >>> (n + 1) →
    ∃ e', benchRun (3 * (n + 1)) ⟨e, p, []⟩ = .next ⟨e', { p with phase := .shifting v 24, sck := 0 }, []⟩ ∧
      SameCommand e e' ∧ e'.phase = .grise ∧ e'.pulsecnt = 0 ∧ e'.shift = v := by
  induction n with
  | zero =>
    intro e p hp hr hs hb hat hv
    obtain ⟨e', hrun, hsame, hshift, -, hend, -⟩ := benchRun_resultBit hp hr hs hb hat hv
    rw [hb] at hrun
    exact ⟨e', hrun, hsame, (hend rfl).1, (hend rfl).2, by simpa using hshift⟩
  | succ n ih =>
    intro e p hp hr hs hb hat hv
    obtain ⟨e₁, hrun₁, hsame₁, hshift₁, hcnt₁, -, hp₁⟩ := benchRun_resultBit hp hr hs hb hat hv
    rw [← hcnt₁] at hrun₁
    obtain ⟨e', hrun, hsame, hend⟩ :=
      ih (p := { p with phase := .shifting v e₁.bitcnt.toNat, sck := 0 }) (hp₁ n.succ_ne_zero)
        (hsame₁.resets_eq.trans hr) rfl (by omega) (.inr rfl) hshift₁
    exact ⟨e', by rw [Nat.mul_succ, Nat.add_comm, benchRun_add 3 _ hrun₁, hrun], hsame₁.trans hsame, hend⟩

/-! ### The gain pulses -/

theorem exists_modeOfPulses {n : Nat} (hpos : n ≠ 0) (hle : n ≤ 3) : ∃ m, modeOfPulses n = some m := by
  interval_cases n
  · exact absurd rfl hpos
  all_goals exact ⟨_, rfl⟩

/-- The peer takes gain pulse `g + 1` for the one that programs the mode of its table (60_exceptions.md R93). -/
def TakesGainPulse (g : Nat) (p : Peer) : Prop :=
  ∀ m, modeOfPulses (g + 1) = some m →
    peerRise (.gain (g + 1)) p = { p with phase := .trailing (g + 1), nextMode := m }

theorem takesGainPulse_trailing {g : Nat} (h : p.phase = .trailing g) : TakesGainPulse g p :=
  fun _ hm => peerRise_gain h hm

theorem takesGainPulse_shifting (h : p.phase = .shifting v 24) : TakesGainPulse 0 p := by
  intro m hm
  cases hm
  exact peerRise_firstGain h

theorem finishResponse_congr {s t : State} (hc : s.cur = t.cur) (hv : s.shift = t.shift) :
    finishResponse s = finishResponse t := by
  simp [finishResponse, hc, hv]

/-- One gain pulse, its high edge and its low edge; the last one ends the command (41_read.md R69, R70, R72). -/
theorem benchRun_gainPulse {m : Mode} (hp : e.phase = .grise) (hr : e.resets = []) (hs : p.sck = 0)
    (ht : TakesGainPulse e.pulsecnt.toNat p) (hm : modeOfPulses (e.pulsecnt.toNat + 1) = some m) :
    ∃ e', benchRun 2 ⟨e, p, []⟩ = .next
        ⟨e', { p with phase := .trailing (e.pulsecnt.toNat + 1), nextMode := m, sck := 0 }, []⟩ ∧
      SameCommand e e' ∧ e'.shift = e.shift ∧ e'.pulsecnt = e.pulsecnt + 1 ∧
      (e.pulsecnt + 1 = e.gainp → e'.phase = .idle ∧ e'.rsp = finishResponse e) ∧
      (e.pulsecnt + 1 ≠ e.gainp → e'.phase = .grise) := by
  have hpulse : pulseOf e = .gain (e.pulsecnt.toNat + 1) := by simp [pulseOf, hp]
  have hrise : peerClock (pulseOf e) 1 p =
      { p with phase := .trailing (e.pulsecnt.toNat + 1), nextMode := m, sck := 1 } := by
    rw [hpulse, peerClock_rise _ hs, ht m hm]
  have hfall (e₁ : State) : peerClock (pulseOf e₁) 0
      { p with phase := .trailing (e.pulsecnt.toNat + 1), nextMode := m, sck := 1 } =
      { p with phase := .trailing (e.pulsecnt.toNat + 1), nextMode := m, sck := 0 } := by
    rw [peerClock_fall _ rfl, peerFall_awake (by simp)]
  rw [benchRun_succ 1 (benchStep_quiet hr (.gainRise hp) hrise)]
  by_cases hg : e.pulsecnt + 1 = e.gainp
  · exact ⟨_, benchRun_succ 0 (benchStep_quiet hr (.gainFallLast rfl hg) (hfall _)),
      ⟨rfl, rfl, rfl⟩, rfl, rfl, fun _ => ⟨rfl, rfl⟩, fun h => absurd hg h⟩
  · exact ⟨_, benchRun_succ 0 (benchStep_quiet hr (.gainFallMore rfl hg) (hfall _)),
      ⟨rfl, rfl, rfl⟩, rfl, rfl, fun h => absurd h hg, fun _ => rfl⟩

/-- The gain pulses still to come, which leave the peer programmed with the mode of `GAINP`. -/
theorem benchRun_gainPulses {m : Mode} (n : Nat) : ∀ {e : State} {p : Peer}, e.phase = .grise → e.resets = [] →
    p.sck = 0 → e.pulsecnt.toNat + (n + 1) = e.gainp.toNat → TakesGainPulse e.pulsecnt.toNat p →
    modeOfPulses e.gainp.toNat = some m →
    ∃ e', benchRun (2 * (n + 1)) ⟨e, p, []⟩ = .next
        ⟨e', { p with phase := .trailing e.gainp.toNat, nextMode := m, sck := 0 }, []⟩ ∧
      e'.phase = .idle ∧ e'.gainp = e.gainp ∧ e'.rsp = finishResponse e := by
  induction n with
  | zero =>
    intro e p hp hr hs hg ht hm
    have hsucc := pulsecnt_succ_toNat (p := e.pulsecnt) (g := e.gainp) (by omega)
    have hlast : e.pulsecnt + 1 = e.gainp := BitVec.eq_of_toNat_eq (by omega)
    rw [← hg] at hm
    obtain ⟨e', hrun, hsame, -, -, hend, -⟩ := benchRun_gainPulse hp hr hs ht hm
    rw [← hg]
    exact ⟨e', hrun, (hend hlast).1, hsame.gainp_eq, (hend hlast).2⟩
  | succ n ih =>
    intro e p hp hr hs hg ht hm
    have hsucc := pulsecnt_succ_toNat (p := e.pulsecnt) (g := e.gainp) (by omega)
    have hmore : e.pulsecnt + 1 ≠ e.gainp := fun h => by rw [h] at hsucc; omega
    obtain ⟨m₁, hm₁⟩ := exists_modeOfPulses (n := e.pulsecnt.toNat + 1) (by omega) (by omega)
    obtain ⟨e₁, hrun₁, hsame₁, hshift₁, hcnt₁, -, hp₁⟩ := benchRun_gainPulse hp hr hs ht hm₁
    rw [← hsucc, ← hcnt₁] at hrun₁
    obtain ⟨e', hrun, hidle, hgainp, hrsp⟩ := ih
      (p := { p with phase := .trailing e₁.pulsecnt.toNat, nextMode := m₁, sck := 0 }) (hp₁ hmore)
      (hsame₁.resets_eq.trans hr) rfl (by rw [hcnt₁, hsame₁.gainp_eq]; omega) (takesGainPulse_trailing rfl)
      (hsame₁.gainp_eq ▸ hm)
    rw [hsame₁.gainp_eq] at hrun
    exact ⟨e', by rw [Nat.mul_succ, Nat.add_comm, benchRun_add 2 _ hrun₁, hrun], hidle, hgainp.trans hsame₁.gainp_eq,
      hrsp.trans (finishResponse_congr hsame₁.cur_eq hshift₁)⟩

/-! ### A whole read -/

/-- A read sequence on the bench, from its first poll to its response, for either command: it takes the result the peer
has in hand or converts, and programs the mode of `GAINP` (41_read.md R73, 60_exceptions.md R93). -/
theorem Awaits.benchRun_read {k : Nat} {m : Mode} (h : Awaits v p k script q) (hp : e.phase = .wait)
    (hr : e.resets = []) (hs : e.sckl = p.sck) (hlow : p.sck = 0) (hm : modeOfPulses e.gainp.toNat = some m) :
    ∃ e', benchRun (73 + k + 2 * e.gainp.toNat) ⟨e, p, script⟩ = .next
        ⟨e', { q with phase := .trailing e.gainp.toNat, nextMode := m, sck := 0 }, []⟩ ∧
      e'.phase = .idle ∧ e'.gainp = e.gainp ∧ e'.rsp = finishResponse { e with shift := v } := by
  obtain ⟨n, hn⟩ : ∃ n, e.gainp.toNat = n + 1 := by
    cases hg : e.gainp.toNat with
    | zero => rw [hg] at hm; cases hm
    | succ n => exact ⟨n, rfl⟩
  obtain ⟨e₁, hrun₁, hsame₁, hready⟩ := h.benchRun_polls hp hr hs
  obtain ⟨hp₁, hb₁, hv₁⟩ := hready
  obtain ⟨e₂, hrun₂, hsame₂, hp₂, hcnt₂, hv₂⟩ := benchRun_dataPulses (v := v) 23 hp₁ (hsame₁.resets_eq.trans hr)
    (h.sck_eq.trans hlow) (by rw [hb₁]; rfl) (.inl ⟨by rw [hb₁]; rfl, h.phase_eq⟩)
    (hv₁.trans (BitVec.ushiftRight_eq_zero (by decide)).symm)
  have hsame := hsame₁.trans hsame₂
  obtain ⟨e₃, hrun₃, hidle, hgainp, hrsp⟩ := benchRun_gainPulses (m := m) n
    (p := { q with phase := .shifting v 24, sck := 0 }) hp₂ (hsame.resets_eq.trans hr) rfl
    (by rw [hcnt₂, hsame.gainp_eq, hn]; exact Nat.zero_add _) (by rw [hcnt₂]; exact takesGainPulse_shifting rfl)
    (hsame.gainp_eq ▸ hm)
  rw [hsame.gainp_eq] at hrun₃ hgainp
  refine ⟨e₃, ?_, hidle, hgainp, hrsp.trans (finishResponse_congr hsame.cur_eq hv₂)⟩
  have hsteps : 73 + k + 2 * e.gainp.toNat = k + 1 + (3 * (23 + 1) + 2 * (n + 1)) := by omega
  rw [hsteps, benchRun_add _ _ hrun₁, benchRun_add _ _ hrun₂, hrun₃]

/-! ### Gain selection on the bench -/

variable {w : CmdWord} {os : List CmdWord} {code : BitVec 32} {g : BitVec 2}

/-- The acceptance of `SETGAIN` with a recognised code: the forced power-up write, at which the peer becomes `q`
(42_gain_select.md R77, R79). -/
theorem benchStep_setgain {b : Bench} (hp : b.engine.phase = .idle) (ho : b.engine.offers = w :: os)
    (hd : decode w = .ok (.setgain code)) (hg : gainPulsesOf code = some g) (hr : b.engine.resets = [])
    (hq : peerClock .outside 0 b.peerNow = q) :
    ∃ e', benchStep b = .next ⟨e', q, b.script.tail⟩ ∧ e'.phase = .wait ∧ e'.cur = .setgain ∧ e'.gainp = g ∧
      e'.sckl = 0 ∧ e'.resets = [] := by
  have hpulse : pulseOf b.engine = .outside := by simp [pulseOf, hp]
  exact ⟨_, benchStep_of_transition hr (.setgain hp ho hd hg) (by rw [hpulse, hq]), rfl, rfl, rfl, rfl, hr⟩

/-- Settles O49: in each case the forced write leaves a peer with its line low that has a result latched or converts; the
throwaway read takes that result and programs the mode of the code. -/
theorem setgainSettlesThePeersMode : Obligations.SetgainSettlesThePeersMode := by
  intro b os w code g m v v' k hp ho hd hg hm hs hr hcase
  obtain ⟨p, q, hstep, hlow, hawaits⟩ : ∃ p q, peerClock .outside 0 b.peerNow = p ∧ p.sck = 0 ∧
      Awaits v p k b.script.tail q := by
    obtain ⟨e, p, script⟩ := b
    obtain ⟨hph, hlow, rfl, rfl⟩ | ⟨hph | ⟨g₀, hph⟩, hlow, rfl⟩ | ⟨hph, hhigh, rfl⟩ := hcase
    · exact ⟨p, _, peerClock_same _ hlow.symm, hlow, .latched hph⟩
    · exact ⟨p, _, peerClock_same _ hlow.symm, hlow, .converting k hph⟩
    · exact ⟨p, _, peerClock_same _ hlow.symm, hlow, .trailing k hph⟩
    · exact ⟨_, _, peerClock_fall (p := p) _ hhigh, rfl, .converting k (by rw [peerFall_asleep (by exact hph)])⟩
  obtain ⟨e₁, h₁, hp₁, hcur₁, hg₁, hs₁, hr₁⟩ := benchStep_setgain hp ho hd hg hr hstep
  rw [← hg₁] at hm
  obtain ⟨e', hrun, hidle, hgainp, hrsp⟩ := hawaits.benchRun_read hp₁ hr₁ (hs₁.trans hlow.symm) hlow hm
  rw [hg₁] at hrun hgainp
  have hsteps : 74 + k + 2 * g.toNat = 73 + k + 2 * g.toNat + 1 := by omega
  have hfin : inMidRead e' = false := by simp [inMidRead, hidle]
  refine ⟨_, by rw [hsteps, benchRun_succ _ h₁, hrun], hidle, hrsp.trans (finishResponse_setgain hcur₁), hgainp, ?_, ?_⟩
  all_goals rw [peerInput, hfin, peerFinish_trailing _ v' rfl]

end Sys2Proof.Machine
end

/-! ## The exception and the end of a run (60_exceptions.md R85, R104) -/

section
namespace Sys2Proof.Machine

variable {s t u : State} {ev : List Event} {program : List CmdWord}

/-- Settles O11: the transition of an illegal word writes the whole state out. -/
theorem illegalCommandIsPrecise : Obligations.IllegalCommandIsPrecise :=
  fun _ _ _ _ hp ho hr hd => step_of_transition hr (.illegal hp ho hd)

/-- Settles O34: a run ends in `IDLE`, and a reset empties the history, which then lists no accepted word. -/
theorem waitAndResetAreNoEnd : Obligations.WaitAndResetAreNoEnd := by
  refine ⟨fun _ s hp hend => ?_, fun _ s t hne hr h hend => hne ?_⟩
  · exact absurd (hp.symm.trans hend.idle) (by decide)
  · rw [step_reset hr] at h
    cases h
    exact hend.accepted.symm

/-! ### The run in progress -/

/-- The engine is in the run of `program`: the words accepted and those still offered are the program, and each accepted
word but the one in progress is answered (60_exceptions.md R104). -/
structure InRun (program : List CmdWord) (s : State) : Prop where
  inv : Inv s
  noReset : s.resets = []
  words : acceptedOf s.trace ++ s.offers = program
  balance : (acceptedOf s.trace).length = (responsesOf s.trace).length + unanswered s

/-- A transition takes the word it accepts from the offers. -/
theorem Transition.offers_eq (h : Transition s ev t) : s.offers = acceptedOf ev ++ t.offers := by
  cases h <;> simp [acceptedOf, *]

theorem Transition.keeps_inRun (h : Transition s ev t) (hr : InRun program s) : InRun program t where
  inv := h.keeps_inv hr.inv
  noReset := h.resets_eq.trans hr.noReset
  words := by rw [h.trace_eq, acceptedOf_append, List.append_assoc, ← h.offers_eq, hr.words]
  balance := by
    have hs := hr.balance
    have hev := h.balance
    simp only [h.trace_eq, acceptedOf_append, responsesOf_append, List.length_append]
    omega

theorem InRun.runEnded (h : InRun program s) (hp : s.phase = .idle) (ho : s.offers = []) : RunEnded program s where
  idle := hp
  noneLeft := ho
  accepted := by rw [← h.words, ho, List.append_nil]
  answered := by
    have hbal := h.balance
    rw [unanswered, if_pos hp] at hbal
    rw [← h.words, ho, List.append_nil, hbal]
    rfl

/-! ### The work left -/

/-- The work left in a run: a bound on its steps other than the polls that read 1. A command needs its acceptance, the poll
that reads 0 and at most 78 steps behind it. -/
def workLeft (s : State) : Nat := 80 * s.offers.length + if s.phase = .wait then 79 else stepsLeft s

/-- The acceptance of a word leaves the work of one command at most. -/
theorem Transition.workLeft_lt_of_idle (h : Transition s ev t) (hi : Inv s) (hp : s.phase = .idle) :
    workLeft t < workLeft s := by
  obtain ⟨hb, -⟩ | ⟨-, w, os, -, ha⟩ := h.acceptedOf_cases
  · exact absurd hp hb
  have hlen : s.offers.length = t.offers.length + 1 := by rw [h.offers_eq, ha]; rfl
  have hle := stepsLeft_le (h.keeps_inv hi)
  unfold workLeft
  split <;> omega

/-- Past its polls a command does one step of the work left. -/
theorem Transition.workLeft_lt_of_busy (h : Transition s ev t) (hi : Inv s) (hb : s.phase ≠ .idle)
    (hw : s.phase ≠ .wait) : workLeft t < workLeft s := by
  have hleft := h.stepsLeft_eq hi hb hw
  rw [workLeft, workLeft, if_neg hw, if_neg (h.phase_ne_wait hb hw), h.offers_eq_of_busy hb]
  omega

/-- A poll does work where it reads 0; else the engine waits on with the same work left. -/
theorem Transition.workLeft_of_wait (h : Transition s ev t) (hi : Inv s) (hw : s.phase = .wait) :
    workLeft t < workLeft s ∨ (t.phase = .wait ∧ workLeft t = workLeft s) := by
  have hb : s.phase ≠ .idle := by simp [hw]
  have hle := stepsLeft_le (h.keeps_inv hi)
  rw [workLeft, workLeft, if_pos hw, h.offers_eq_of_busy hb]
  by_cases ht : t.phase = .wait
  · exact .inr ⟨ht, by rw [if_pos ht]⟩
  · rw [if_neg ht]
    omega

/-! ### A run ends or hangs -/

/-- The run comes from `s` to a state with less work left. -/
def Advances (program : List CmdWord) (s : State) : Prop :=
  ∃ k t, run k s = .next t ∧ InRun program t ∧ workLeft t < workLeft s

/-- An engine that does not wait any more after `k` steps comes to the poll that reads 0. By induction on `k`. -/
theorem advances_of_leaves_wait (k : Nat) : ∀ {s : State}, InRun program s → s.phase = .wait →
    (¬∃ t, run k s = .next t ∧ t.phase = .wait) → Advances program s := by
  induction k with
  | zero => exact fun _ hw hout => absurd ⟨_, run_zero, hw⟩ hout
  | succ k ih =>
    intro s hr hw hout
    obtain ⟨ev, t, h⟩ := Transition.exists_of_busy (s := s) (by simp [hw])
    have hstep := step_of_transition_of_nil hr.noReset h
    have ht := h.keeps_inRun hr
    obtain hlt | ⟨hwt, heq⟩ := h.workLeft_of_wait hr.inv hw
    · exact ⟨1, t, run_succ 0 hstep, ht, hlt⟩
    · rw [run_succ k hstep] at hout
      obtain ⟨j, u, hrun, hu, hlt⟩ := ih ht hwt hout
      exact ⟨j + 1, u, (run_succ j hstep).trans hrun, hu, heq ▸ hlt⟩

/-- A run that neither hangs nor is at its end leads on. -/
theorem InRun.advances (h : InRun program s) (hhang : ¬Hung s) (hmore : ¬(s.phase = .idle ∧ s.offers = [])) :
    Advances program s := by
  by_cases hw : s.phase = .wait
  · obtain ⟨k, hout⟩ := not_forall.mp hhang
    exact advances_of_leaves_wait k h hw hout
  · obtain ⟨ev, t, ht⟩ := (Transition.exists_or_refused s).resolve_right hmore
    refine ⟨1, t, run_succ 0 (step_of_transition_of_nil h.noReset ht), ht.keeps_inRun h, ?_⟩
    by_cases hp : s.phase = .idle
    · exact ht.workLeft_lt_of_idle h.inv hp
    · exact ht.workLeft_lt_of_busy h.inv hp hw

/-- By induction on the work left. -/
theorem runEnded_or_hung (n : Nat) : ∀ {s : State}, InRun program s → workLeft s = n →
    (∃ k t, run k s = .next t ∧ RunEnded program t) ∨ (∃ k t, run k s = .next t ∧ Hung t) := by
  induction n using Nat.strong_induction_on with
  | _ n ih =>
    intro s h hn
    by_cases hhang : Hung s
    · exact .inr ⟨0, s, run_zero, hhang⟩
    by_cases hend : s.phase = .idle ∧ s.offers = []
    · exact .inl ⟨0, s, run_zero, h.runEnded hend.1 hend.2⟩
    obtain ⟨j, t, hrun, ht, hlt⟩ := h.advances hhang hend
    obtain ⟨k, u, hu, hue⟩ | ⟨k, u, hu, huh⟩ := ih (workLeft t) (hn ▸ hlt) ht rfl
    · exact .inl ⟨j + k, u, (run_add j k hrun).trans hu, hue⟩
    · exact .inr ⟨j + k, u, (run_add j k hrun).trans hu, huh⟩

/-- Settles O33: the idle engine is at the start of the run, and every step but a poll that reads 1 does some of its work. -/
theorem runEndsOrHangs : Obligations.RunEndsOrHangs := by
  intro s program hi hp ht hr ho
  have hrun : InRun program s := ⟨hi, hr, by rw [ht, ho]; rfl, by rw [ht, unanswered, if_pos hp]; rfl⟩
  exact runEnded_or_hung _ hrun rfl

end Sys2Proof.Machine
end

/-! ## Reads, power cycles and sleep of the attached converter (60_exceptions.md R91 to R94, R100, assumption 7) -/

section
namespace Sys2Proof.Machine

variable {e : State} {p q : Peer} {b b' : Bench} {v : Reading}

/-! ### A `READ` of a peer that keeps the contract -/

theorem modeOfPulses_gainp {g : BitVec 2} (hg : g ≠ 0) : ∃ m, modeOfPulses g.toNat = some m :=
  exists_modeOfPulses (fun h => hg (BitVec.eq_of_toNat_eq h)) (by have := g.isLt; omega)

/-- The acceptance of `READ`, which moves no line (41_read.md R63). -/
theorem benchStep_read {os : List CmdWord} (hp : b.engine.phase = .idle) (ho : b.engine.offers = 0x0004 :: os)
    (hr : b.engine.resets = []) (hs : b.engine.sckl = b.peerNow.sck) :
    ∃ e', benchStep b = .next ⟨e', b.peerNow, b.script.tail⟩ ∧ e'.phase = .wait ∧ e'.cur = .read ∧
      e'.gainp = b.engine.gainp ∧ e'.sckl = b.engine.sckl ∧ e'.resets = [] :=
  ⟨_, benchStep_of_transition hr (.read hp ho rfl) (peerClock_same _ hs), rfl, rfl, rfl, rfl, hr⟩

/-- A whole `READ` of a peer that awaits its result at the first poll: it answers that result and programs the mode of
`GAINP` (41_read.md R73, R74, 60_exceptions.md R93). -/
theorem Awaits.benchRun_readCommand {os : List CmdWord} {k : Nat} (h : Awaits v b.peer k b.script.tail q)
    (hp : b.engine.phase = .idle) (hg : b.engine.gainp ≠ 0) (ho : b.engine.offers = 0x0004 :: os)
    (hs : b.engine.sckl = 0) (hlow : b.peer.sck = 0) (hr : b.engine.resets = []) (hnow : b.peerNow = b.peer) :
    ∃ b', benchRun (74 + k + 2 * b.engine.gainp.toNat) b = .next b' ∧ b'.engine.phase = .idle ∧
      b'.engine.rsp = sext32 v ∧ b'.peer.convMode = q.convMode ∧
      some b'.peer.nextMode = modeOfPulses b.engine.gainp.toNat ∧ b'.peer.phase = .trailing b.engine.gainp.toNat := by
  obtain ⟨m, hm⟩ := modeOfPulses_gainp hg
  obtain ⟨e₁, h₁, hp₁, hcur₁, hg₁, hs₁, hr₁⟩ := benchStep_read hp ho hr (by rw [hnow, hs, hlow])
  rw [hnow] at h₁
  rw [← hg₁] at hm ⊢
  obtain ⟨e', hrun, hidle, -, hrsp⟩ := h.benchRun_read hp₁ hr₁ (by rw [hs₁, hs, hlow]) hlow hm
  have hsteps : 74 + k + 2 * e₁.gainp.toNat = 73 + k + 2 * e₁.gainp.toNat + 1 := by omega
  exact ⟨_, by rw [hsteps, benchRun_succ _ h₁, hrun], hidle, hrsp.trans (finishResponse_read hcur₁), rfl, hm.symm, rfl⟩

/-- Settles O47: in each case the acceptance leaves a peer that awaits its result at the first poll, converted in the mode
programmed before. -/
theorem readThroughAContractPeer : Obligations.ReadThroughAContractPeer := by
  rintro ⟨e, p, script⟩ os v hp hg ho hs hlow hr
  refine ⟨fun hph hsc => ?_, fun k g hph hsc => ?_, fun k hph hsc => ?_⟩ <;> obtain rfl := hsc
  · exact (Awaits.latched hph).benchRun_readCommand (b := ⟨e, p, _⟩) hp hg ho hs hlow hr rfl
  · exact (Awaits.trailing k hph).benchRun_readCommand (b := ⟨e, p, _⟩) hp hg ho hs hlow hr rfl
  · exact (Awaits.converting k hph).benchRun_readCommand (b := ⟨e, p, _⟩) hp hg ho hs hlow hr rfl

/-! ### A complete read through a lost peer -/

/-- The lost peer stands at data pulse `n + 1` of the read: it has seen `n` of them, or the read's first is to come. -/
def LostAtDataPulse (stray : Bool) (n : Nat) (p : Peer) : Prop :=
  (n = 0 ∧ ∃ m, p.phase = .unspecified stray m) ∨ p.phase = .unspecified stray n

theorem LostAtDataPulse.peerRise_eq {stray : Bool} {n : Nat} (h : LostAtDataPulse stray n p) :
    peerRise (.data (n + 1)) p = { p with phase := .unspecified stray (n + 1) } := by
  obtain ⟨rfl, m, h⟩ | h := h
  · exact peerRise_lost_first h
  · exact peerRise_lost h

/-- The data pulses from pulse `24 - n` to the last, all of which the lost peer counts. -/
theorem benchRun_lostDataPulses {stray : Bool} (n : Nat) : ∀ {e : State} {p : Peer}, e.phase = .drise → e.resets = [] →
    p.sck = 0 → e.bitcnt.toNat + (n + 1) = 24 → LostAtDataPulse stray e.bitcnt.toNat p →
    ∃ e', benchRun (3 * (n + 1)) ⟨e, p, []⟩ = .next ⟨e', { p with phase := .unspecified stray 24, sck := 0 }, []⟩ ∧
      SameCommand e e' ∧ e'.phase = .grise ∧ e'.pulsecnt = 0 := by
  induction n with
  | zero =>
    intro e p hp hr hs hb hat
    have hlast : e.bitcnt + 1 = 24 := BitVec.eq_of_toNat_eq (by simp; omega)
    obtain ⟨e', hrun, hsame, -, -, hend, -⟩ := benchRun_dataPulse hp hr hs hat.peerRise_eq (by simp) rfl
    rw [hb] at hrun
    exact ⟨e', hrun, hsame, hend hlast⟩
  | succ n ih =>
    intro e p hp hr hs hb hat
    have hsucc : (e.bitcnt + 1).toNat = e.bitcnt.toNat + 1 := by simp; omega
    have hmore : e.bitcnt + 1 ≠ 24 := fun h => by
      have h24 : (e.bitcnt + 1).toNat = 24 := congrArg BitVec.toNat h
      omega
    obtain ⟨e₁, hrun₁, hsame₁, -, hcnt₁, -, hp₁⟩ := benchRun_dataPulse hp hr hs hat.peerRise_eq (by simp) rfl
    rw [← hsucc, ← hcnt₁] at hrun₁
    obtain ⟨e', hrun, hsame, hend⟩ := ih (p := { p with phase := .unspecified stray e₁.bitcnt.toNat, sck := 0 })
      (hp₁ hmore) (hsame₁.resets_eq.trans hr) rfl (by rw [hcnt₁]; omega) (.inr rfl)
    exact ⟨e', by rw [Nat.mul_succ, Nat.add_comm, benchRun_add 3 _ hrun₁, hrun], hsame₁.trans hsame, hend⟩

/-- A lost peer that has seen a whole read and no stray pulse is programmed by its gain pulses
(93_implementation_defined.md I14). -/
theorem takesGainPulse_lost (h : p.phase = .unspecified false 24) : TakesGainPulse 0 p := by
  intro m hm
  cases hm
  simp [peerRise, peerTrailPulse, peerGainPulse, modeOfPulses, h]

/-- The peer counts afresh at gain pulse `g + 1` and is not programmed by it. -/
def CountsAfresh (g : Nat) (p : Peer) : Prop :=
  peerRise (.gain (g + 1)) p = { p with phase := .unspecified false 0 }

/-- The peer that may have counted a stray pulse (91_not_in_source.md N9). -/
theorem countsAfresh_stray (h : p.phase = .unspecified true 24) : CountsAfresh 0 p := by
  simp [CountsAfresh, peerRise, peerTrailPulse, h]

/-- The peer at the gain pulses behind the first. -/
theorem countsAfresh_again {g : Nat} (h : p.phase = .unspecified false 0) : CountsAfresh g p := by
  simp [CountsAfresh, peerRise, peerTrailPulse, peerLost, h]

/-- One gain pulse, at which the peer counts afresh. -/
theorem benchRun_lostGainPulse (hp : e.phase = .grise) (hr : e.resets = []) (hs : p.sck = 0)
    (hc : CountsAfresh e.pulsecnt.toNat p) :
    ∃ e', benchRun 2 ⟨e, p, []⟩ = .next ⟨e', { p with phase := .unspecified false 0, sck := 0 }, []⟩ ∧
      SameCommand e e' ∧ e'.pulsecnt = e.pulsecnt + 1 ∧ (e.pulsecnt + 1 = e.gainp → e'.phase = .idle) ∧
      (e.pulsecnt + 1 ≠ e.gainp → e'.phase = .grise) := by
  have hpulse : pulseOf e = .gain (e.pulsecnt.toNat + 1) := by simp [pulseOf, hp]
  have hrise : peerClock (pulseOf e) 1 p = { p with phase := .unspecified false 0, sck := 1 } := by
    rw [hpulse, peerClock_rise _ hs, hc]
  have hfall (e₁ : State) : peerClock (pulseOf e₁) 0 { p with phase := .unspecified false 0, sck := 1 } =
      { p with phase := .unspecified false 0, sck := 0 } := by
    rw [peerClock_fall _ rfl, peerFall_awake (by simp)]
  rw [benchRun_succ 1 (benchStep_quiet hr (.gainRise hp) hrise)]
  by_cases hg : e.pulsecnt + 1 = e.gainp
  · exact ⟨_, benchRun_succ 0 (benchStep_quiet hr (.gainFallLast rfl hg) (hfall _)),
      ⟨rfl, rfl, rfl⟩, rfl, fun _ => rfl, fun h => absurd hg h⟩
  · exact ⟨_, benchRun_succ 0 (benchStep_quiet hr (.gainFallMore rfl hg) (hfall _)),
      ⟨rfl, rfl, rfl⟩, rfl, fun h => absurd h hg, fun _ => rfl⟩

/-- The gain pulses still to come, behind which the peer counts afresh. -/
theorem benchRun_lostGainPulses (n : Nat) : ∀ {e : State} {p : Peer}, e.phase = .grise → e.resets = [] →
    p.sck = 0 → e.pulsecnt.toNat + (n + 1) = e.gainp.toNat → CountsAfresh e.pulsecnt.toNat p →
    ∃ e', benchRun (2 * (n + 1)) ⟨e, p, []⟩ = .next ⟨e', { p with phase := .unspecified false 0, sck := 0 }, []⟩ ∧
      e'.phase = .idle := by
  induction n with
  | zero =>
    intro e p hp hr hs hg hc
    have hsucc := pulsecnt_succ_toNat (p := e.pulsecnt) (g := e.gainp) (by omega)
    obtain ⟨e', hrun, -, -, hend, -⟩ := benchRun_lostGainPulse hp hr hs hc
    exact ⟨e', hrun, hend (BitVec.eq_of_toNat_eq (by omega))⟩
  | succ n ih =>
    intro e p hp hr hs hg hc
    have hsucc := pulsecnt_succ_toNat (p := e.pulsecnt) (g := e.gainp) (by omega)
    have hmore : e.pulsecnt + 1 ≠ e.gainp := fun h => by rw [h] at hsucc; omega
    obtain ⟨e₁, hrun₁, hsame₁, hcnt₁, -, hp₁⟩ := benchRun_lostGainPulse hp hr hs hc
    obtain ⟨e', hrun, hidle⟩ := ih (p := { p with phase := .unspecified false 0, sck := 0 }) (hp₁ hmore)
      (hsame₁.resets_eq.trans hr) rfl (by rw [hcnt₁, hsame₁.gainp_eq]; omega) (countsAfresh_again rfl)
    exact ⟨e', by rw [Nat.mul_succ, Nat.add_comm, benchRun_add 2 _ hrun₁, hrun], hidle⟩

/-- Settles O48: the lost peer counts all 24 data pulses; the gain pulses then program it, or, behind a stray pulse, make
it count afresh. -/
theorem completeReadProgramsALostPeer : Obligations.CompleteReadProgramsALostPeer := by
  rintro ⟨e, p, script⟩ stray n hp hb hg - hlow hr hsc hph
  cases hsc
  obtain ⟨e₁, hrun₁, hsame, hp₁, hcnt₁⟩ := benchRun_lostDataPulses 23 hp hr hlow (by rw [hb]; rfl)
    (.inl ⟨by rw [hb]; rfl, n, hph⟩)
  have hr₁ := hsame.resets_eq.trans hr
  obtain ⟨g, hgn⟩ := Nat.exists_eq_succ_of_ne_zero (fun h => hg (BitVec.eq_of_toNat_eq h) : e.gainp.toNat ≠ 0)
  have hcount : e₁.pulsecnt.toNat + (g + 1) = e₁.gainp.toNat := by
    rw [hcnt₁, hsame.gainp_eq, hgn]
    exact Nat.zero_add _
  have hrun (k : Nat) : benchRun (72 + k) ⟨e, p, []⟩ = _ := benchRun_add _ k hrun₁
  cases stray with
  | false =>
    obtain ⟨m, hm⟩ := modeOfPulses_gainp hg
    obtain ⟨e', hrun₂, hidle, -⟩ := benchRun_gainPulses g
      (p := { p with phase := .unspecified false 24, sck := 0 }) hp₁ hr₁ rfl hcount
      (by rw [hcnt₁]; exact takesGainPulse_lost rfl) (hsame.gainp_eq ▸ hm)
    rw [hsame.gainp_eq] at hrun₂
    exact ⟨_, by rw [hrun, hgn, hrun₂], hidle, rfl, fun _ => ⟨rfl, hm.symm⟩, fun h => by cases h⟩
  | true =>
    obtain ⟨e', hrun₂, hidle⟩ := benchRun_lostGainPulses g
      (p := { p with phase := .unspecified true 24, sck := 0 }) hp₁ hr₁ rfl hcount
      (by rw [hcnt₁]; exact countsAfresh_stray rfl)
    exact ⟨_, by rw [hrun, hgn, hrun₂], hidle, rfl, fun h => (by cases h), fun _ => rfl⟩

/-! ### Power-down and power-up -/

theorem peerClock_sck (pulse : Pulse) (new : Level) (p : Peer) : (peerClock pulse new p).sck = new := by
  unfold peerClock
  split
  · next h => exact h.symm
  · split <;> rfl

/-- A long high level puts the peer to sleep, and the low level behind it wakes it (60_exceptions.md R94). -/
theorem peerClock_fall_held (pulse : Pulse) (h : p.sck = 1) :
    peerClock pulse 0 (peerHold p) = { phase := .converting, sck := 0, convMode := .a128, nextMode := .a128 } := by
  rw [peerHold, if_pos h, peerClock_fall _ (by exact h), peerFall_asleep (by rfl)]

variable {script : List PeerInput} {os : List CmdWord}

/-- `PDOWN` as one write (40_line_control.md R58). -/
theorem benchStep_pdownHigh (hp : e.phase = .idle) (ho : e.offers = 0x0001 :: os) (hr : e.resets = [])
    (hf : e.cfg.pdownForm = .highOnly) :
    benchStep ⟨e, p, .quiet :: script⟩ = .next
      ⟨{ e with
          sckl := 1, rsp := 0, phase := .idle, trace := e.trace ++ [.c 0x0001, .w 1, .r 0], offers := os, dinIn := [] },
        peerClock (pulseOf e) 1 p, script⟩ :=
  benchStep_of_transition (b := ⟨e, p, .quiet :: script⟩) hr (.pdownHigh hp ho rfl hf) rfl

/-- The first write of `PDOWN` as two (R58). -/
theorem benchStep_pdownLow (hp : e.phase = .idle) (ho : e.offers = 0x0001 :: os) (hr : e.resets = [])
    (hf : e.cfg.pdownForm = .lowThenHigh) :
    benchStep ⟨e, p, .quiet :: script⟩ = .next
      ⟨{ e with sckl := 0, phase := .pdhi, trace := e.trace ++ [.c 0x0001, .w 0], offers := os, dinIn := [] },
        peerClock (pulseOf e) 0 p, script⟩ :=
  benchStep_of_transition (b := ⟨e, p, .quiet :: script⟩) hr (.pdownLow hp ho rfl hf) rfl

/-- The second write of `PDOWN` as two (R58). -/
theorem benchStep_pdhi (hp : e.phase = .pdhi) (hr : e.resets = []) :
    benchStep ⟨e, p, .quiet :: script⟩ = .next
      ⟨{ e with sckl := 1, rsp := 0, phase := .idle, trace := e.trace ++ [.w 1, .r 0], dinIn := [] },
        peerClock (pulseOf e) 1 p, script⟩ :=
  benchStep_of_transition (b := ⟨e, p, .quiet :: script⟩) hr (.pdhi hp) rfl

/-- `PDOWN` in `n` steps, one for each write of its form: the line is high behind it (R58). -/
theorem benchRun_pdown {n : Nat} (hp : e.phase = .idle) (ho : e.offers = 0x0001 :: os) (hr : e.resets = [])
    (hn : (e.cfg.pdownForm = .highOnly ∧ n = 1) ∨ (e.cfg.pdownForm = .lowThenHigh ∧ n = 2)) :
    ∃ q, benchRun n ⟨e, p, List.replicate n .quiet ++ script⟩ = .next
        ⟨{ e with
            sckl := 1, rsp := 0, phase := .idle
            trace := e.trace ++ (if n = 1 then [.c 0x0001, .w 1, .r 0] else [.c 0x0001, .w 0, .w 1, .r 0])
            offers := os, dinIn := [] }, q, script⟩ ∧ q.sck = 1 := by
  obtain ⟨hf, rfl⟩ | ⟨hf, rfl⟩ := hn
  · exact ⟨_, benchRun_succ 0 (benchStep_pdownHigh hp ho hr hf), peerClock_sck _ 1 p⟩
  · refine ⟨_, ?_, peerClock_sck .outside 1 (peerClock (pulseOf e) 0 p)⟩
    have hlow := benchStep_pdownLow (p := p) (script := .quiet :: script) hp ho hr hf
    refine (benchRun_succ 1 hlow).trans ((benchRun_succ 0 (benchStep_pdhi (by rfl) (by exact hr))).trans ?_)
    simp [benchRun, pulseOf]

/-- The acceptance of `PUP` after the hold (R59, 60_exceptions.md R94). -/
theorem benchStep_pup_held (hp : e.phase = .idle) (ho : e.offers = 0x0002 :: os) (hr : e.resets = [])
    (hs : p.sck = 1) :
    benchStep ⟨e, p, [.held]⟩ = .next
      ⟨{ e with
          sckl := 0, rsp := 0, phase := .idle, trace := e.trace ++ [.c 0x0002, .w 0, .r 0], offers := os, dinIn := [] },
        { phase := .converting, sck := 0, convMode := .a128, nextMode := .a128 }, []⟩ :=
  benchStep_of_transition (b := ⟨e, p, [.held]⟩) hr (.pup hp ho rfl) (peerClock_fall_held _ hs)

/-- Settles O50: under either form `PDOWN` leaves the line high at the peer, and the hold and `PUP` do the rest. -/
theorem powerCycleResetsThePeerOnly : Obligations.PowerCycleResetsThePeerOnly := by
  rintro ⟨e, p, script⟩ os hp ho - hr n hn hsc
  obtain rfl : script = List.replicate n .quiet ++ [.held] := hsc
  replace hp : e.phase = .idle := hp
  obtain ⟨q, hrun, hq⟩ := benchRun_pdown (p := p) (script := [.held]) hp ho hr hn
  refine ⟨_, (benchRun_add n 1 hrun).trans (benchRun_succ 0 (benchStep_pup_held (by rfl) (by rfl) (by exact hr) hq)),
    rfl, rfl, rfl, rfl, ?_⟩
  split <;> simp [hp]

/-! ### Sleep -/

/-- What a step of the bench is: a step of its engine and the peer's answer to it. -/
theorem benchStep_cases (h : benchStep b = .next b') :
    ∃ e, step { b.engine with dinIn := (peerDin b.peerNow).toList } = .next e ∧
      b' = { engine := { e with dinIn := [] }, peer := peerAfter b.engine e b.peerNow, script := b.script.tail } := by
  unfold benchStep at h
  split at h
  · next e he => cases h; exact ⟨e, he, rfl⟩
  · cases h
  · cases h

theorem peerNow_asleep (h : b.peer.phase = .asleep) : b.peerNow = b.peer := by
  unfold Bench.peerNow
  split
  · exact peerInput_asleep _ _ _ h
  · rfl

/-- Settles O51: the outside's input leaves the sleeping peer as it is, and its answer to the step depends on the level
after it only. -/
theorem onlyALowLevelEndsSleep : Obligations.OnlyALowLevelEndsSleep := by
  intro b b' hph hs h
  obtain ⟨e, -, rfl⟩ := benchStep_cases h
  rw [peerNow_asleep hph]
  exact ⟨peerAfter_wakes hph hs, peerAfter_sleepsOn hph hs⟩

end Sys2Proof.Machine
end

/-! ## Several instances on one platform (60_exceptions.md R98, R99, assumption 8) -/

section
namespace Sys2Proof.Machine

variable {s t : State} {ev : List Event}

/-! ### Moving the instances -/

theorem moveOne_false : moveOne false = id := rfl

theorem moveOne_next (h : step s = .next t) : moveOne true s = t := by simp [moveOne, h]

theorem moveAll_getElem? (mask : List Bool) (es : List State) (j : Nat) :
    (moveAll mask es)[j]? = es[j]?.map (moveOne (mask.getD j false)) := by
  induction mask, es using moveAll.induct generalizing j with
  | case1 es => simp [moveAll, moveOne_false]
  | case2 => simp [moveAll]
  | case3 m ms s ss ih => cases j <;> simp [moveAll, ih]

theorem length_moveAll (mask : List Bool) (es : List State) : (moveAll mask es).length = es.length := by
  induction mask, es using moveAll.induct with
  | case1 | case2 => simp [moveAll]
  | case3 m ms s ss ih => simp [moveAll, ih]

/-! ### The clock lines driven -/

/-- The lines driven are those of the instances that drive. -/
theorem drivenLines_eq (mask : List Bool) (es : List State) :
    drivenLines mask es =
      ((mask.zip es).filter fun p => drivesSck p.1 p.2).map fun p => p.2.cfg.clockPin := by
  induction mask, es using drivenLines.induct with
  | case1 | case2 => simp [drivenLines]
  | case3 m ms s ss hd ih | case4 m ms s ss hd ih => simp [drivenLines, hd, ih]

theorem drivenLines_sublist (mask : List Bool) (es : List State) :
    (drivenLines mask es).Sublist (es.map fun s => s.cfg.clockPin) := by
  induction mask, es using drivenLines.induct with
  | case1 | case2 => simp [drivenLines]
  | case3 m ms s ss hd ih => simpa [drivenLines, hd] using ih
  | case4 m ms s ss hd ih => simpa [drivenLines, hd] using ih.cons _

theorem any_isWrite_iff (t : List Event) : t.any isWrite = true ↔ writesOf t ≠ [] := by
  induction t with
  | nil => simp [writesOf]
  | cons e t ih => cases e <;> simp_all [writesOf, isWrite]

theorem drivesSck_of_reset (h : resetAsserted s = true) : drivesSck true s = true := by simp [drivesSck, h]

theorem drivesSck_of_write (h : step s = .next t) (ht : t.trace = s.trace ++ ev) (hw : writesOf ev ≠ []) :
    drivesSck true s = true := by
  simp [drivesSck, moveOne_next h, ht, (any_isWrite_iff ev).mpr hw]

/-- Two instances that drive one line give it two entries. -/
theorem not_nodup_drivenLines {mask : List Bool} {es : List State} {i j : Nat} (hij : i ≠ j) (hs : es[i]? = some s)
    (ht : es[j]? = some t) (hi : mask[i]? = some true) (hj : mask[j]? = some true)
    (hpin : s.cfg.clockPin = t.cfg.clockPin) (hds : drivesSck true s = true) (hdt : drivesSck true t = true) :
    ¬(drivenLines mask es).Nodup := by
  intro hnd
  wlog hlt : i < j generalizing i j s t
  · exact this hij.symm ht hs hj hi hpin.symm hdt hds (by omega)
  obtain ⟨hil, hi⟩ := List.getElem?_eq_some_iff.mp (List.getElem?_zip_eq_some (z := (true, s)) |>.mpr ⟨hi, hs⟩)
  obtain ⟨hjl, hj⟩ := List.getElem?_eq_some_iff.mp (List.getElem?_zip_eq_some (z := (true, t)) |>.mpr ⟨hj, ht⟩)
  rw [drivenLines_eq, List.Nodup, List.pairwise_map, List.pairwise_filter, List.pairwise_iff_getElem] at hnd
  exact hnd i j hil hjl hlt (by rw [hi]; exact hds) (by rw [hj]; exact hdt) (by rw [hi, hj]; exact hpin)

/-! ### The platform's step -/

theorem platformStep_next {mask : List Bool} {es es' : List State} (h : platformStep mask es = .next es') :
    es' = moveAll mask es := by
  unfold platformStep at h
  split at h <;> cases h
  rfl

/-- Settles O54: state `j` after the step is the move of state `j`, and the lines driven are among the lines of all. -/
theorem instancesShareNoState : Obligations.InstancesShareNoState := by
  refine fun mask es => ⟨fun es' h => ?_, fun hnd => ⟨_, if_pos (hnd.sublist (drivenLines_sublist mask es))⟩⟩
  obtain rfl := platformStep_next h
  refine ⟨length_moveAll mask es, fun j s s' hs hs' => ?_⟩
  rw [moveAll_getElem?, hs, Option.map_some, Option.some.injEq] at hs'
  subst hs'
  exact ⟨fun hm => by rw [hm]; rfl, fun u hm hu => by rw [hm, moveOne_next hu]⟩

/-- Settles O55: each of the two drives the line, so the line has two entries among those driven. -/
theorem sharedClockWritesStopThePlatform : Obligations.SharedClockWritesStopThePlatform := by
  intro mask es i j s t hij hs ht hi hj hpin hds hdt
  have drives {s : State} (h : resetAsserted s = true ∨
      ∃ u ev, step s = .next u ∧ u.trace = s.trace ++ ev ∧ writesOf ev ≠ []) : drivesSck true s = true := by
    obtain hr | ⟨u, ev, hu, htr, hw⟩ := h
    · exact drivesSck_of_reset hr
    · exact drivesSck_of_write hu htr hw
  exact if_neg (not_nodup_drivenLines hij hs ht hi hj hpin (drives hds) (drives hdt))

end Sys2Proof.Machine
end

/-! ## Reset and the wait for the converter (70_reset_and_hazards.md R105, R106, R117, R122; 60_exceptions.md R87) -/

section
namespace Sys2Proof.Machine

variable {s t : State} {ev : List Event} {k : Nat} {e e' : State} {p : Peer} {b : Bench} {rest : List Bool}

/-! ### A step with reset asserted -/

theorem resetAsserted_cons (h : s.resets = true :: rest) : resetAsserted s = true := by simp [resetAsserted, h]

/-- Settles O2: the reset step of the engine, which uses up the one entry of the reset input. -/
theorem resetGivesTheTableFromAnyState : Obligations.ResetGivesTheTableFromAnyState := by
  intro s rest hr
  obtain rfl : s.resets.tail = rest := by rw [hr]; rfl
  exact step_reset (resetAsserted_cons hr)

/-! ### The wait -/

theorem Path.with_resets (h : Path k s ev t) (rs : List Bool) :
    Path k { s with resets := rs } ev { t with resets := rs } := by
  induction h with
  | nil s => exact .nil _
  | cons ht _ ih => exact .cons (ht.with_resets rs) ih

/-- The converse of `Path.run_eq`: a run without reset that answers a next state is a path. -/
theorem Path.exists_of_run (k : Nat) : ∀ {s : State}, NoReset k s → run k s = .next t →
    ∃ ev u, Path k s ev u ∧ t = { u with resets := s.resets.drop k } := by
  induction k with
  | zero => intro s _ h; cases h; exact ⟨[], t, .nil t, rfl⟩
  | succ k ih =>
    intro s hr h
    obtain ⟨u, hu, hrun⟩ := run_succ_cases h
    obtain ⟨ev, ht⟩ := (step_eq_next_iff hr.head).mp hu
    obtain ⟨ev', v, hpath, rfl⟩ := ih (hr.tail ht.resets_eq) hrun
    refine ⟨ev ++ ev', { v with resets := s.resets }, (Path.cons ht hpath).with_resets s.resets, ?_⟩
    rw [ht.resets_eq, resetTaken_resets, List.drop_tail]

/-- A poll reads 0, or it reads 1 and the engine waits on (41_read.md R64). -/
theorem Transition.poll_cases (h : Transition s ev t) (hp : s.phase = .wait) :
    ev = [.s 0] ∨ (ev = [.s 1] ∧ t.phase = .wait) := by
  cases h with
  | pollReady _ h0 => exact .inl (by rw [h0])
  | pollBusy _ h0 => exact .inr ⟨by rw [(BitVec.eq_zero_or_eq_one _).resolve_left h0]; rfl, hp⟩
  | _ => simp_all

/-- While no poll reads 0 the engine waits on: one sample of level 1 a step, and no write of `SCK` (R122). -/
theorem Path.waits_on (h : Path k s ev t) (hp : s.phase = .wait) (h0 : .s 0 ∉ ev) :
    t.phase = .wait ∧ ev = List.replicate k (.s 1) ∧ t.sckl = s.sckl := by
  induction h with
  | nil s => exact ⟨hp, rfl, rfl⟩
  | cons ht _ ih =>
    obtain rfl | ⟨rfl, hw⟩ := ht.poll_cases hp
    · exact absurd (List.mem_cons_self ..) h0
    · obtain ⟨hphase, hev, hsckl⟩ := ih hw fun hmem => h0 (List.mem_append_right _ hmem)
      exact ⟨hphase, by rw [hev]; rfl, hsckl.trans (ht.sckl_eq_of_samples (.inl hp))⟩

/-- Settles O26: the run is a path from `WAIT`. -/
theorem readEndsOnlyAfterAReadyPoll : Obligations.ReadEndsOnlyAfterAReadyPoll := by
  intro k s t hp hr hrun
  obtain ⟨ev, u, hpath, rfl⟩ := Path.exists_of_run k hr hrun
  exact ⟨ev, hpath.trace_eq, hpath.waits_on hp⟩

/-! ### A reset of the engine on the bench -/

/-- A reset step of the bench. -/
theorem benchStep_reset (h : b.engine.resets = true :: rest) :
    benchStep b = .next
      { engine := { engineReset (resetTaken b.engine) with dinIn := [] }
        peer := peerAfter b.engine (engineReset (resetTaken b.engine)) b.peerNow
        script := b.script.tail } := by
  rw [benchStep_next (step_reset (by exact resetAsserted_cons h))]
  rfl

/-- A peer on a high line that slept, or for which the line has by now been high long enough, sleeps (60_exceptions.md R94). -/
theorem peerNow_sleeps (hs : b.peer.sck = 1) (h : b.script.head? = some .held ∨ b.peer.phase = .asleep) :
    b.peerNow.phase = .asleep ∧ b.peerNow.sck = 1 := by
  obtain hheld | hsleep := h
  · obtain ⟨is, hscript⟩ := List.head?_eq_some_iff.mp hheld
    have hnow : b.peerNow = { b.peer with phase := .asleep } := by
      simp [Bench.peerNow, hscript, peerInput, peerHold, hs]
    rw [hnow]
    exact ⟨rfl, hs⟩
  · rw [peerNow_asleep hsleep]
    exact ⟨hsleep, hs⟩

/-- Settles O52: the peer sleeps when the reset comes, and the mode it wakes in is that of one gain pulse, the reset value
of `GAINP`. -/
theorem resetPowersUpASleepingPeer : Obligations.ResetPowersUpASleepingPeer := by
  intro b rest hr hs hsleeps
  obtain ⟨hph, hhigh⟩ := peerNow_sleeps hs hsleeps
  refine ⟨_, benchStep_reset hr, rfl, rfl, rfl, ?_⟩
  rw [peerAfter_wakes hph hhigh (engineReset_sckl _)]
  exact ⟨rfl, rfl, rfl, rfl⟩

theorem inMidRead_of_phase (h : (e.phase = .drise ∧ e.bitcnt ≠ 0) ∨ e.phase = .dsamp ∨ e.phase = .dfall ∨
    e.phase = .grise ∨ e.phase = .gfall) : inMidRead e = true := by
  obtain ⟨hp, hb⟩ | hp | hp | hp | hp := h
  · simpa [inMidRead, hp] using hb
  all_goals simp [inMidRead, hp]

/-- A reset in mid-read loses a peer that does not sleep (93_implementation_defined.md I14). -/
theorem peerAfter_reset_midRead (hr : resetAsserted e = true) (hm : inMidRead e = true) (h : p.phase ≠ .asleep) :
    peerAfter e e' p = { peerLost 0 p with sck := e'.sckl } := by simp [peerAfter, peerEngineReset, hr, hm, h]

/-- Settles O53: the reset comes in mid-read, so the peer is lost, and a lost peer drives no level the contract gives. -/
theorem resetInMidReadLeavesThePeerOpen : Obligations.ResetInMidReadLeavesThePeerOpen := by
  intro b rest hr hscript hawake hmid
  have hnow : b.peerNow = b.peer := by simp [Bench.peerNow, hscript]
  obtain ⟨stray, hlost⟩ := peerLost_phase b.peer 0
  refine ⟨_, stray, benchStep_reset hr, rfl, rfl, ?_⟩
  rw [hnow, peerAfter_reset_midRead (resetAsserted_cons hr) (inMidRead_of_phase hmid) hawake]
  exact ⟨rfl, hlost, by simp [peerDin, hlost]⟩

end Sys2Proof.Machine
end
